-- ==== Sys2Proof/Word.lean ====
section
/-! DEFINITION. The value types of the machine (spec/00_scope.md R6, R10, R11): bytes, 16-bit words,
12-bit address immediates and the indexes of registers, keys, columns and rows. -/

namespace Sys2Proof

/-- A byte of memory, a general register or a timer: the timer width of R6 (R30, R37, R45). -/
abbrev Byte := BitVec 8

/-- An instruction word, `PC`, `I` or a stack entry: their width in R6 (R32, R35, R36, R100). -/
abbrev Word := BitVec 16

/-- The address immediate `nnn` (R101). -/
abbrev Addr12 := BitVec 12

/-- `NREG`, the number of general registers (R6, R30). -/
abbrev nreg : Nat := 16

/-- `NKEYS`, the number of logical keys (R6, R42). -/
abbrev nkeys : Nat := 16

/-- The number of a general register, and the fields `x` and `y` that name one (R30, R101). -/
abbrev Reg := Fin nreg

/-- The sprite height `n`, a count 0..15 (R103). -/
abbrev Height := Fin 16

/-- The index of a logical key (R42). -/
abbrev Key := Fin nkeys

/-- `VF`, the flag register (R31). -/
abbrev VF : Reg := 15

end Sys2Proof
end

