-- ==== Sys2Proof/Syntax.lean ====
section
/-! DEFINITION. The instructions: one constructor per row of spec/opcode_table.json, that is the 34
operations of spec/30_encoding.md R105 and the default arm of R112. The operands are the fields of R101
that the row lists. -/

namespace Sys2Proof

/-- The 35 arms of the decoder mux (R105, R112), in the order of the opcode table. -/
inductive Instr where
  /-- `CLS`, `00E0` (R260). -/
  | cls
  /-- `RET`, `00EE` (R162). -/
  | ret
  /-- `JP nnn`, `1nnn` (R160). -/
  | jp (nnn : Addr12)
  /-- `CALL nnn`, `2nnn` (R161). -/
  | call (nnn : Addr12)
  /-- `SE Vx, kk`, `3xkk` (R163). -/
  | seXKK (x : Reg) (kk : Byte)
  /-- `SNE Vx, kk`, `4xkk` (R164). -/
  | sneXKK (x : Reg) (kk : Byte)
  /-- `SE Vx, Vy`, `5xy0` (R165). -/
  | seXY (x y : Reg)
  /-- `LD Vx, kk`, `6xkk` (R190). -/
  | ldXKK (x : Reg) (kk : Byte)
  /-- `ADD Vx, kk`, `7xkk` (R191). -/
  | addXKK (x : Reg) (kk : Byte)
  /-- `LD Vx, Vy`, `8xy0` (R192). -/
  | ldXY (x y : Reg)
  /-- `OR Vx, Vy`, `8xy1` (R193). -/
  | orXY (x y : Reg)
  /-- `AND Vx, Vy`, `8xy2` (R194). -/
  | andXY (x y : Reg)
  /-- `XOR Vx, Vy`, `8xy3` (R195). -/
  | xorXY (x y : Reg)
  /-- `ADD Vx, Vy`, `8xy4` (R196). -/
  | addXY (x y : Reg)
  /-- `SUB Vx, Vy`, `8xy5` (R197). -/
  | subXY (x y : Reg)
  /-- `SHR Vx`, `8xy6` (R198); the row has the field `y`, which the operation does not read. -/
  | shr (x y : Reg)
  /-- `SUBN Vx, Vy`, `8xy7` (R199). -/
  | subnXY (x y : Reg)
  /-- `SHL Vx`, `8xyE` (R200); the row has the field `y`, which the operation does not read. -/
  | shl (x y : Reg)
  /-- `SNE Vx, Vy`, `9xy0` (R166). -/
  | sneXY (x y : Reg)
  /-- `LD I, nnn`, `Annn` (R230). -/
  | ldI (nnn : Addr12)
  /-- `JP V0, nnn`, `Bnnn` (R167). -/
  | jpV0 (nnn : Addr12)
  /-- `RND Vx, kk`, `Cxkk` (R201). -/
  | rnd (x : Reg) (kk : Byte)
  /-- `DRW Vx, Vy, n`, `Dxyn` (R261). -/
  | drw (x y : Reg) (n : Height)
  /-- `SKP Vx`, `Ex9E` (R293). -/
  | skp (x : Reg)
  /-- `SKNP Vx`, `ExA1` (R294). -/
  | sknp (x : Reg)
  /-- `LD Vx, DT`, `Fx07` (R290). -/
  | ldXDT (x : Reg)
  /-- `LD Vx, K`, `Fx0A` (R295). -/
  | ldXK (x : Reg)
  /-- `LD DT, Vx`, `Fx15` (R291). -/
  | ldDTX (x : Reg)
  /-- `LD ST, Vx`, `Fx18` (R292). -/
  | ldSTX (x : Reg)
  /-- `ADD I, Vx`, `Fx1E` (R231). -/
  | addIX (x : Reg)
  /-- `LD F, Vx`, `Fx29` (R232). -/
  | ldFX (x : Reg)
  /-- `LD B, Vx`, `Fx33` (R233). -/
  | ldBX (x : Reg)
  /-- `LD [I], Vx`, `Fx55` (R234). -/
  | ldMemX (x : Reg)
  /-- `LD Vx, [I]`, `Fx65` (R235). -/
  | ldXMem (x : Reg)
  /-- `NOP_UNMATCHED`, every word that matches no other row (R113, R137). The word is kept, so that no
  bit of an encoding is dropped; the operation does not read it. -/
  | nopUnmatched (w : Word)
deriving DecidableEq, Repr

end Sys2Proof
end

