-- ==== Sys2Proof/WellFormed.lean ====
section
/-! DEFINITION. Well-formed instructions. The operand types admit exactly the values of the fields of
spec/30_encoding.md R101, so the one check left is on the default arm: its word must be one of the
unmatched words of R113. -/

namespace Sys2Proof

/-- The low bytes that the F-family matches (R113). -/
def fFamilyCodes : List Byte := [0x07, 0x0A, 0x15, 0x18, 0x1E, 0x29, 0x33, 0x55, 0x65]

/-- The unmatched words, family by family as R113 lists them. -/
def unmatchedWord (w : Word) : Bool :=
  let top : BitVec 4 := w.extractLsb' 12 4
  let low : Byte := w.extractLsb' 0 8
  let nib : BitVec 4 := w.extractLsb' 0 4
  (top == 0x0 && low != 0xE0 && low != 0xEE) ||
  (top == 0x8 && [0x8#4, 0x9#4, 0xA#4, 0xB#4, 0xC#4, 0xD#4, 0xF#4].contains nib) ||
  (top == 0xE && low != 0x9E && low != 0xA1) ||
  (top == 0xF && !fFamilyCodes.contains low)

/-- An instruction the decoder can produce. Every operand of the 34 operations is legal at every value of
its field (R104); the default arm stands for unmatched words alone (R113). -/
def Instr.wf : Instr → Bool
  | .nopUnmatched w => unmatchedWord w
  | .cls | .ret | .jp _ | .call _ | .seXKK _ _ | .sneXKK _ _ | .seXY _ _ | .ldXKK _ _ | .addXKK _ _
  | .ldXY _ _ | .orXY _ _ | .andXY _ _ | .xorXY _ _ | .addXY _ _ | .subXY _ _ | .shr _ _ | .subnXY _ _
  | .shl _ _ | .sneXY _ _ | .ldI _ | .jpV0 _ | .rnd _ _ | .drw _ _ _ | .skp _ | .sknp _ | .ldXDT _
  | .ldXK _ | .ldDTX _ | .ldSTX _ | .addIX _ | .ldFX _ | .ldBX _ | .ldMemX _ | .ldXMem _ => true

end Sys2Proof
end

