-- ==== Sys2Proof/Decode.lean ====
section
/-! DEFINITION. The decoder mux (spec/30_encoding.md R100, R101, R110 to R114), total on any bytes, and the
encoder written from the same formats (R102, R105), with the opcode map as mask and match rows. -/

namespace Sys2Proof

/-! ### Fields (R101) -/

def fieldOp (w : Word) : BitVec 4 := w.extractLsb' 12 4
def fieldX (w : Word) : Reg := (w.extractLsb' 8 4).toFin
def fieldY (w : Word) : Reg := (w.extractLsb' 4 4).toFin
def fieldN (w : Word) : BitVec 4 := w.extractLsb' 0 4
def fieldKK (w : Word) : Byte := w.extractLsb' 0 8
def fieldNNN (w : Word) : Addr12 := w.extractLsb' 0 12

/-! ### Decoding (R110) -/

/-- The 0-family: dispatch on the low byte, nibble 2 is not examined. -/
def decode0 (w : Word) : Instr :=
  match fieldKK w with
  | 0xE0#8 => .cls
  | 0xEE#8 => .ret
  | _ => .nopUnmatched w

/-- The 8-family: dispatch on the low nibble. -/
def decode8 (w : Word) : Instr :=
  match fieldN w with
  | 0x0#4 => .ldXY (fieldX w) (fieldY w)
  | 0x1#4 => .orXY (fieldX w) (fieldY w)
  | 0x2#4 => .andXY (fieldX w) (fieldY w)
  | 0x3#4 => .xorXY (fieldX w) (fieldY w)
  | 0x4#4 => .addXY (fieldX w) (fieldY w)
  | 0x5#4 => .subXY (fieldX w) (fieldY w)
  | 0x6#4 => .shr (fieldX w) (fieldY w)
  | 0x7#4 => .subnXY (fieldX w) (fieldY w)
  | 0xE#4 => .shl (fieldX w) (fieldY w)
  | _ => .nopUnmatched w

/-- The E-family: dispatch on the low byte. -/
def decodeE (w : Word) : Instr :=
  match fieldKK w with
  | 0x9E#8 => .skp (fieldX w)
  | 0xA1#8 => .sknp (fieldX w)
  | _ => .nopUnmatched w

/-- The F-family: dispatch on the low byte. -/
def decodeF (w : Word) : Instr :=
  match fieldKK w with
  | 0x07#8 => .ldXDT (fieldX w)
  | 0x0A#8 => .ldXK (fieldX w)
  | 0x15#8 => .ldDTX (fieldX w)
  | 0x18#8 => .ldSTX (fieldX w)
  | 0x1E#8 => .addIX (fieldX w)
  | 0x29#8 => .ldFX (fieldX w)
  | 0x33#8 => .ldBX (fieldX w)
  | 0x55#8 => .ldMemX (fieldX w)
  | 0x65#8 => .ldXMem (fieldX w)
  | _ => .nopUnmatched w

/-- `Decode(w)` (R110): a function of the word alone, total on all 65536 words (R111). In the 5- and
9-families the low nibble is not examined. -/
def decodeWord (w : Word) : Instr :=
  match fieldOp w with
  | 0x0#4 => decode0 w
  | 0x1#4 => .jp (fieldNNN w)
  | 0x2#4 => .call (fieldNNN w)
  | 0x3#4 => .seXKK (fieldX w) (fieldKK w)
  | 0x4#4 => .sneXKK (fieldX w) (fieldKK w)
  | 0x5#4 => .seXY (fieldX w) (fieldY w)
  | 0x6#4 => .ldXKK (fieldX w) (fieldKK w)
  | 0x7#4 => .addXKK (fieldX w) (fieldKK w)
  | 0x8#4 => decode8 w
  | 0x9#4 => .sneXY (fieldX w) (fieldY w)
  | 0xA#4 => .ldI (fieldNNN w)
  | 0xB#4 => .jpV0 (fieldNNN w)
  | 0xC#4 => .rnd (fieldX w) (fieldKK w)
  | 0xD#4 => .drw (fieldX w) (fieldY w) (fieldN w).toFin
  | 0xE#4 => decodeE w
  | _ => decodeF w

/-- Why bytes decode to no instruction. -/
inductive DecodeError where
  /-- Fewer than the two bytes every instruction has (R100). -/
  | truncated
deriving DecidableEq, Repr

/-- The word of two bytes as they lie in memory, the high byte first (R78, R100). -/
def wordOfBytes (hi lo : Byte) : Word := hi ++ lo

/-- The decoder on bytes: it consumes exactly two of them, big-endian (R100), and answers the instruction and
the bytes left over. -/
def decode : List Byte → Except DecodeError (Instr × List Byte)
  | hi :: lo :: rest => .ok (decodeWord (wordOfBytes hi lo), rest)
  | _ => .error .truncated

/-- The words whose decoding rests on the choice of secondary field (R114): (a), (b) and (c) of the rule. -/
def unsettledWord (w : Word) : Bool :=
  (fieldOp w == 0x0 && w != 0x00E0 && w != 0x00EE && (fieldN w == 0x0 || fieldN w == 0xE)) ||
  ((fieldOp w == 0x5 || fieldOp w == 0x9) && fieldN w != 0x0) ||
  (fieldOp w == 0xE && fieldKK w != 0x9E && fieldKK w != 0xA1 && (fieldN w == 0xE || fieldN w == 0x1))

/-! ### Encoding (R102, R105) -/

/-- Format `nnn`: `oooo nnnn nnnn nnnn`. -/
def wordNNN (op : BitVec 4) (nnn : Addr12) : Word := op ++ nnn

/-- Format `xkk`, and format `x` with the function code as `kk`: `oooo xxxx kkkk kkkk`. -/
def wordXKK (op : BitVec 4) (x : Reg) (kk : Byte) : Word := op ++ BitVec.ofFin (w := 4) x ++ kk

/-- Formats `xy` and `xyn`: `oooo xxxx yyyy nnnn`. -/
def wordXYN (op : BitVec 4) (x y : Reg) (n : BitVec 4) : Word :=
  op ++ BitVec.ofFin (w := 4) x ++ BitVec.ofFin (w := 4) y ++ n

/-- The word of an instruction, with every bit the decoder does not examine zero (R105, R115). -/
def encode : Instr → Word
  | .cls => 0x00E0
  | .ret => 0x00EE
  | .jp nnn => wordNNN 0x1 nnn
  | .call nnn => wordNNN 0x2 nnn
  | .seXKK x kk => wordXKK 0x3 x kk
  | .sneXKK x kk => wordXKK 0x4 x kk
  | .seXY x y => wordXYN 0x5 x y 0x0
  | .ldXKK x kk => wordXKK 0x6 x kk
  | .addXKK x kk => wordXKK 0x7 x kk
  | .ldXY x y => wordXYN 0x8 x y 0x0
  | .orXY x y => wordXYN 0x8 x y 0x1
  | .andXY x y => wordXYN 0x8 x y 0x2
  | .xorXY x y => wordXYN 0x8 x y 0x3
  | .addXY x y => wordXYN 0x8 x y 0x4
  | .subXY x y => wordXYN 0x8 x y 0x5
  | .shr x y => wordXYN 0x8 x y 0x6
  | .subnXY x y => wordXYN 0x8 x y 0x7
  | .shl x y => wordXYN 0x8 x y 0xE
  | .sneXY x y => wordXYN 0x9 x y 0x0
  | .ldI nnn => wordNNN 0xA nnn
  | .jpV0 nnn => wordNNN 0xB nnn
  | .rnd x kk => wordXKK 0xC x kk
  | .drw x y n => wordXYN 0xD x y (BitVec.ofFin (w := 4) n)
  | .skp x => wordXKK 0xE x 0x9E
  | .sknp x => wordXKK 0xE x 0xA1
  | .ldXDT x => wordXKK 0xF x 0x07
  | .ldXK x => wordXKK 0xF x 0x0A
  | .ldDTX x => wordXKK 0xF x 0x15
  | .ldSTX x => wordXKK 0xF x 0x18
  | .addIX x => wordXKK 0xF x 0x1E
  | .ldFX x => wordXKK 0xF x 0x29
  | .ldBX x => wordXKK 0xF x 0x33
  | .ldMemX x => wordXKK 0xF x 0x55
  | .ldXMem x => wordXKK 0xF x 0x65
  | .nopUnmatched w => w

/-- The two bytes of a word as memory holds them (R78). -/
def bytesOfWord (w : Word) : List Byte := [w.extractLsb' 8 8, w.extractLsb' 0 8]

/-! ### The opcode map as masks (R105, R110) -/

/-- A row of the opcode map: the words `w` with `w & mask = value` are this operation's. -/
structure OpcodeRow where
  mnemonic : String
  mask : Word
  value : Word
deriving DecidableEq, Repr

/-- The row's words. -/
def OpcodeRow.matchesWord (r : OpcodeRow) (w : Word) : Bool := w &&& r.mask == r.value

/-- The rows of the 0- to 7-families and of the 9- to D-families (R105, masks of R110). -/
def opcodeRowsPlain : List OpcodeRow :=
  [⟨"CLS", 0xF0FF, 0x00E0⟩, ⟨"RET", 0xF0FF, 0x00EE⟩, ⟨"JP_nnn", 0xF000, 0x1000⟩,
   ⟨"CALL_nnn", 0xF000, 0x2000⟩, ⟨"SE_Vx__kk", 0xF000, 0x3000⟩, ⟨"SNE_Vx__kk", 0xF000, 0x4000⟩,
   ⟨"SE_Vx__Vy", 0xF000, 0x5000⟩, ⟨"LD_Vx__kk", 0xF000, 0x6000⟩, ⟨"ADD_Vx__kk", 0xF000, 0x7000⟩,
   ⟨"SNE_Vx__Vy", 0xF000, 0x9000⟩, ⟨"LD_I__nnn", 0xF000, 0xA000⟩, ⟨"JP_V0__nnn", 0xF000, 0xB000⟩,
   ⟨"RND_Vx__kk", 0xF000, 0xC000⟩, ⟨"DRW_Vx__Vy__n", 0xF000, 0xD000⟩]

/-- The rows of the 8-family. -/
def opcodeRows8 : List OpcodeRow :=
  [⟨"LD_Vx__Vy", 0xF00F, 0x8000⟩, ⟨"OR_Vx__Vy", 0xF00F, 0x8001⟩, ⟨"AND_Vx__Vy", 0xF00F, 0x8002⟩,
   ⟨"XOR_Vx__Vy", 0xF00F, 0x8003⟩, ⟨"ADD_Vx__Vy", 0xF00F, 0x8004⟩, ⟨"SUB_Vx__Vy", 0xF00F, 0x8005⟩,
   ⟨"SHR_Vx", 0xF00F, 0x8006⟩, ⟨"SUBN_Vx__Vy", 0xF00F, 0x8007⟩, ⟨"SHL_Vx", 0xF00F, 0x800E⟩]

/-- The rows of the E- and F-families. -/
def opcodeRowsEF : List OpcodeRow :=
  [⟨"SKP_Vx", 0xF0FF, 0xE09E⟩, ⟨"SKNP_Vx", 0xF0FF, 0xE0A1⟩, ⟨"LD_Vx__DT", 0xF0FF, 0xF007⟩,
   ⟨"LD_Vx__K", 0xF0FF, 0xF00A⟩, ⟨"LD_DT__Vx", 0xF0FF, 0xF015⟩, ⟨"LD_ST__Vx", 0xF0FF, 0xF018⟩,
   ⟨"ADD_I__Vx", 0xF0FF, 0xF01E⟩, ⟨"LD_F__Vx", 0xF0FF, 0xF029⟩, ⟨"LD_B__Vx", 0xF0FF, 0xF033⟩,
   ⟨"LD__I___Vx", 0xF0FF, 0xF055⟩, ⟨"LD_Vx___I", 0xF0FF, 0xF065⟩]

/-- The 34 rows of the opcode map. -/
def opcodeRows : List OpcodeRow := opcodeRowsPlain ++ opcodeRows8 ++ opcodeRowsEF

/-- The row an instruction belongs to, by its mnemonic in spec/opcode_table.json. -/
def Instr.mnemonic : Instr → String
  | .cls => "CLS"
  | .ret => "RET"
  | .jp _ => "JP_nnn"
  | .call _ => "CALL_nnn"
  | .seXKK _ _ => "SE_Vx__kk"
  | .sneXKK _ _ => "SNE_Vx__kk"
  | .seXY _ _ => "SE_Vx__Vy"
  | .ldXKK _ _ => "LD_Vx__kk"
  | .addXKK _ _ => "ADD_Vx__kk"
  | .ldXY _ _ => "LD_Vx__Vy"
  | .orXY _ _ => "OR_Vx__Vy"
  | .andXY _ _ => "AND_Vx__Vy"
  | .xorXY _ _ => "XOR_Vx__Vy"
  | .addXY _ _ => "ADD_Vx__Vy"
  | .subXY _ _ => "SUB_Vx__Vy"
  | .shr _ _ => "SHR_Vx"
  | .subnXY _ _ => "SUBN_Vx__Vy"
  | .shl _ _ => "SHL_Vx"
  | .sneXY _ _ => "SNE_Vx__Vy"
  | .ldI _ => "LD_I__nnn"
  | .jpV0 _ => "JP_V0__nnn"
  | .rnd _ _ => "RND_Vx__kk"
  | .drw _ _ _ => "DRW_Vx__Vy__n"
  | .skp _ => "SKP_Vx"
  | .sknp _ => "SKNP_Vx"
  | .ldXDT _ => "LD_Vx__DT"
  | .ldXK _ => "LD_Vx__K"
  | .ldDTX _ => "LD_DT__Vx"
  | .ldSTX _ => "LD_ST__Vx"
  | .addIX _ => "ADD_I__Vx"
  | .ldFX _ => "LD_F__Vx"
  | .ldBX _ => "LD_B__Vx"
  | .ldMemX _ => "LD__I___Vx"
  | .ldXMem _ => "LD_Vx___I"
  | .nopUnmatched _ => "NOP_UNMATCHED"

/-! ### The host's reading of a table word -/

/-- The 16 bits of a table row's word: every bit above `nbits` is 0. -/
def tableWord (nbits w : Nat) : Word := BitVec.ofNat 16 (w % 2 ^ nbits)

/-- The instruction the decoder reads from a table row's word, laid out as memory holds it (R78). -/
def decodeTableWord (nbits w : Nat) : Option Instr :=
  match decode (bytesOfWord (tableWord nbits w)) with
  | .ok (i, _) => some i
  | .error _ => none

end Sys2Proof
end

