-- ==== Sys2Proof/Config.lean ====
section
/-! DEFINITION. The implementation parameters (spec/00_scope.md R6, R48) and the free random byte (R201).
The numbers the spec fixes are constants; the parameters it leaves to the implementation are the fields
of `Config`, whose default values stand in Machine/Defaults.lean. The names are those of R6 in Lean's case
(`MEM_SIZE` is `memSize`, `NREG` is `nreg`); `NREG`, `NKEYS` and the widths of R6 stand in Word.lean. -/

namespace Sys2Proof

/-- `MEM_SIZE` (R6, R70). -/
abbrev memSize : Nat := 4096

/-- `FONT_BASE` (R6). -/
abbrev fontBase : Nat := 0

/-- `GLYPH_BYTES` (R6). -/
abbrev glyphBytes : Nat := 5

/-- The length of `FONT`: 16 glyphs of `GLYPH_BYTES` bytes (R87). -/
abbrev fontSize : Nat := 80

/-- `PROG_BASE`, which is also the reset vector (R6, R72). -/
abbrev progBase : Nat := 512

/-- `PROG_MAX` (R6): `MEM_SIZE − PROG_BASE`. -/
abbrev progMax : Nat := memSize - progBase

/-- `FB_W`, the number of columns of the frame (R6). -/
abbrev fbW : Nat := 64

/-- `FB_H`, the number of rows of the frame (R6). -/
abbrev fbH : Nat := 32

/-- A column of the frame. -/
abbrev Col := Fin fbW

/-- A row of the frame. -/
abbrev Row := Fin fbH

/-- The two values of `VF_ALIAS_POLICY` (R6, R203). -/
inductive AliasPolicy where
  /-- The statements of a flagged rule run in the order written. -/
  | sequential
  /-- A VF-alias word raises `AliasUnsettled`. -/
  | fault
deriving DecidableEq, Repr

/-- The implementation parameters that are not one fixed number (R6, R9, R48).
DESIGN CHOICE (log entry 1), safe: `State` carries them beside the spec's own state, because the step
takes a state and nothing else; no instruction and no transaction writes them. -/
structure Config where
  /-- `FONT`: the 80 bytes at 0x000..0x04F (R87). -/
  font : Vector Byte fontSize
  /-- `MEM_INIT`: the bytes of 0x050..0xFFF that are not zero, as (address, byte) pairs (R72). -/
  memInit : List Host.Cell
  /-- `KEYMAP`: external key id to logical key; the first pair of an id counts, and an id without a
  pair is unmapped (R9). -/
  keymap : List (Nat × Key)
  /-- `STACK_DEPTH`; `none` is the spec's `∞` (R6, R36). -/
  stackDepth : Option Nat
  /-- `STRICT_DECODE` (R114). -/
  strictDecode : Bool
  /-- `VF_ALIAS_POLICY` (R203). -/
  vfAliasPolicy : AliasPolicy
deriving DecidableEq, Repr

/-- `Draw()` (R15, R201): the byte of the n-th draw. It has no body, so no proof can see its value, and a
claim about a program that uses `RND` holds for every sequence of draws (log entry 2). -/
opaque Config.randomDraw : Nat → Byte

end Sys2Proof
end

