-- ==== Sys2Proof/Machine/Defaults.lean ====
section
/-! DEFINITION. The default values of the implementation parameters (spec/00_scope.md R6): what a block is
built with where nothing else is said. -/

namespace Sys2Proof

/-- The default `FONT` (R87): glyphs 0 to F, five rows each. PRESUMED (log entry 6): the spec takes the
bytes from general knowledge. -/
def Config.defaultFont : Vector Byte fontSize := #v[
  0xF0, 0x90, 0x90, 0x90, 0xF0,  0x20, 0x60, 0x20, 0x20, 0x70,
  0xF0, 0x10, 0xF0, 0x80, 0xF0,  0xF0, 0x10, 0xF0, 0x10, 0xF0,
  0x90, 0x90, 0xF0, 0x10, 0x10,  0xF0, 0x80, 0xF0, 0x10, 0xF0,
  0xF0, 0x80, 0xF0, 0x90, 0xF0,  0xF0, 0x10, 0x20, 0x40, 0x40,
  0xF0, 0x90, 0xF0, 0x90, 0xF0,  0xF0, 0x90, 0xF0, 0x10, 0xF0,
  0xF0, 0x90, 0xF0, 0x90, 0x90,  0xE0, 0x90, 0xE0, 0x90, 0xE0,
  0xF0, 0x80, 0x80, 0x80, 0xF0,  0xE0, 0x90, 0x90, 0x90, 0xE0,
  0xF0, 0x80, 0xF0, 0x80, 0xF0,  0xF0, 0x80, 0xF0, 0x80, 0x80]

/-- The `KEYMAP` the model starts with. DESIGN CHOICE (log entry 4), unsafe: the parameter is OPEN; external
id `k` is logical key `k`. -/
def Config.defaultKeymap : List (Nat × Key) :=
  [(0, 0), (1, 1), (2, 2), (3, 3), (4, 4), (5, 5), (6, 6), (7, 7), (8, 8), (9, 9), (10, 10), (11, 11),
   (12, 12), (13, 13), (14, 14), (15, 15)]

/-- The parameters of R6 at their defaults. DESIGN CHOICE (log entry 3), unsafe: the OPEN `MEM_INIT` is zero
at every address. -/
def Config.default : Config where
  font := Config.defaultFont
  memInit := []
  keymap := Config.defaultKeymap
  stackDepth := some 16
  strictDecode := false
  vfAliasPolicy := .sequential

end Sys2Proof
end

