-- ==== Sys2Proof/Machine/State.lean ====
section
/-! DEFINITION. The state of the machine (spec/10_state.md), its faults (spec/60_exceptions.md R331) and its
reset (spec/70_reset_and_hazards.md R370). -/

namespace Sys2Proof.Machine

/-- The two states of the engine (R39). -/
inductive Mode where
  | running
  | waitingForKey
deriving DecidableEq, Repr

/-- The five faults (R331), each with the info it records. All are safe: the spec adds them where the
source's behaviour is undefined or unsettled. -/
inductive Fault where
  /-- Raised by the fetch, `DRW`, `LD B`, `LD [I]` and `LD Vx, [I]` when the range passes 0xFFF; records
  the start address of the access (R75). -/
  | memRange (a : Nat)
  /-- Raised by `CALL` with `STACK_DEPTH` entries on the stack; records its `pc` (R161). -/
  | stackOverflow (pc : Word)
  /-- Raised by `RET` with an empty stack; records its `pc` (R162). -/
  | stackUnderflow (pc : Word)
  /-- Raised between fetch and execution of a word of R114 when `STRICT_DECODE` is true; records the word. -/
  | decodeUnsettled (w : Word)
  /-- Raised by a VF-alias word of R203 when `VF_ALIAS_POLICY` is `fault`; records the word. -/
  | aliasUnsettled (w : Word)
deriving DecidableEq, Repr

/-- Why an instruction has no meaning. Safe: nothing is claimed of a refused instruction. -/
inductive Refusal where
  /-- Raised by `exec` for an instruction that has no meaning yet; none is left. -/
  | notModelled (mnemonic : String)
deriving DecidableEq, Repr

/-- The contents of `mem` as (address, byte) pairs, addresses strictly rising; an address without a pair
holds its reset contents (`Config.initialByte`). -/
abbrev Memory := List Host.Cell

/-- The frame: rows of pixels, `true` is White (R44). -/
abbrev Frame := Vector (Vector Bool fbW) fbH

/-- The whole state (R30 to R45), with two fields of the model's own at the end. -/
structure State where
  /-- `V[0..15]` (R30, R31). -/
  v : Vector Byte nreg
  /-- `PC` (R32). -/
  pc : Word
  /-- `I` (R35). -/
  i : Word
  /-- The call stack, the top entry first (R36). -/
  stack : List Word
  /-- The delay timer (R37). -/
  delay : Byte
  /-- The sound timer (R38). -/
  sound : Byte
  /-- `mode` (R39). -/
  mode : Mode
  /-- `dirty` (R40). -/
  dirty : Bool
  /-- `keys[0..15]`, `true` is pressed (R42). -/
  keys : Vector Bool nkeys
  /-- `fb[y][x]` (R44). -/
  fb : Frame
  /-- `mem` (R45). -/
  mem : Memory
  /-- `faulted`, with the info the fault recorded (R43, R331). -/
  faulted : Option Fault
  /-- The parameters the block was built with (R48): not state of the spec, never written (log entry 1). -/
  config : Config
  /-- How many random bytes have been drawn: the index of the next free byte (R201), not state of the
  spec (R47, log entry 2). -/
  draws : Nat
deriving DecidableEq, Repr

/-- The state after construction, and after `reset`, of a block with the given parameters (R370, R371). -/
def State.construct (config : Config) : State where
  v := Vector.replicate nreg 0
  pc := 0x200
  i := 0
  stack := []
  delay := 0
  sound := 0
  mode := .running
  dirty := false
  keys := Vector.replicate nkeys false
  fb := Vector.replicate fbH (Vector.replicate fbW false)
  mem := []
  faulted := none
  config := config
  draws := 0

/-- The machine right after reset, with the parameters at their defaults (R6, R370). -/
def State.reset : State := State.construct Config.default

end Sys2Proof.Machine
end

