-- ==== Sys2Proof/Machine/Ops.lean ====
section
/-! DEFINITION. The shared operations over memory, registers, the stack, the keypad and the frame
(spec/20_memory.md, 40_engine.md R136, 44_display.md R265, 45_timers_keys.md R299 and R300), and taking a
fault (R138). -/

namespace Sys2Proof.Machine

/-- What an instruction's meaning answers: a completed step, a raised fault or a refusal. -/
abbrev Result := Host.Outcome State Fault Refusal

/-- What comes after a next answer; a fault and a refusal end it. -/
def andThen {α β : Type} (r : Host.Outcome α Fault Refusal) (k : α → Host.Outcome β Fault Refusal) :
    Host.Outcome β Fault Refusal :=
  match r with
  | .next a => k a
  | .fault f => .fault f
  | .refused e => .refused e

/-! ### Memory as data -/

/-- The listed byte of an address. -/
def Memory.lookup : Memory → Nat → Option Byte
  | [], _ => none
  | (b, v) :: m, a => if b = a then some v else Memory.lookup m a

/-- The memory with nothing listed at an address. -/
def Memory.erase : Memory → Nat → Memory
  | [], _ => []
  | (b, v) :: m, a => if b = a then Memory.erase m a else (b, v) :: Memory.erase m a

/-- The memory with a byte listed before the first greater address. -/
def Memory.insert : Memory → Nat → Byte → Memory
  | [], a, v => [(a, v)]
  | (b, w) :: m, a, v => if a < b then (a, v) :: (b, w) :: m else (b, w) :: Memory.insert m a v

end Sys2Proof.Machine

namespace Sys2Proof

/-- What an address reads as while nothing is written there (R72): `FONT`, then `MEM_INIT`. -/
def Config.initialByte (c : Config) (a : Nat) : Byte :=
  if h : a < fontSize then c.font[a] else (Machine.Memory.lookup c.memInit a).getD 0

end Sys2Proof

namespace Sys2Proof.Machine

/-- Writing one byte; a byte equal to the reset contents is not listed. -/
def Memory.write (c : Config) (m : Memory) (a : Nat) (v : Byte) : Memory :=
  if v = c.initialByte a then Memory.erase m a else Memory.insert (Memory.erase m a) a v

/-- Writing bytes at `a`, `a+1`, … in this order. -/
def Memory.writeBytes (c : Config) (m : Memory) (a : Nat) : List Byte → Memory
  | [] => m
  | b :: bs => Memory.writeBytes c (Memory.write c m a b) (a + 1) bs

/-- The canonical form: addresses strictly rising and inside the address space, no pair equal to the reset
contents. -/
abbrev Memory.wf (c : Config) (m : Memory) : Prop :=
  m.Pairwise (fun p q => p.1 < q.1) ∧ ∀ p ∈ m, p.1 < memSize ∧ p.2 ≠ c.initialByte p.1

/-! ### The access primitives (R73 to R75) -/

/-- `mem[a]`. -/
def State.readByte (s : State) (a : Nat) : Byte := (Memory.lookup s.mem a).getD (s.config.initialByte a)

/-- `mem[a] <- b`. -/
def State.writeByte (s : State) (a : Nat) (b : Byte) : State :=
  { s with mem := Memory.write s.config s.mem a b }

/-- The bytes to `a`, `a+1`, … in this order. -/
def State.storeBytes (s : State) (a : Nat) (bytes : List Byte) : State :=
  { s with mem := Memory.writeBytes s.config s.mem a bytes }

/-- `MemRead(a, n)` (R73), the byte at `a` first; it does not wrap (R75). -/
def State.memRead (s : State) (a n : Nat) : Except Fault (List Byte) :=
  if n = 0 then .ok []
  else if a + n > memSize then .error (.memRange a)
  else .ok ((List.range n).map fun k => s.readByte (a + k))

/-- `MemWrite(a, n, v)` (R74) with `v` as the list of its `n` bytes; the range is checked before any byte is
written. -/
def State.memWrite (s : State) (a : Nat) (bytes : List Byte) : Except Fault State :=
  if bytes.length = 0 then .ok s
  else if a + bytes.length > memSize then .error (.memRange a)
  else .ok (s.storeBytes a bytes)

/-- The value of bytes as memory holds them, the first byte most significant (R13, R78). -/
def bigEndian (bytes : List Byte) : Word :=
  bytes.foldl (fun acc b => (acc <<< 8) ||| b.setWidth 16) 0

/-! ### Registers and `PC` (R30, R32, R136) -/

/-- `V[r]`. -/
def State.reg (s : State) (r : Reg) : Byte := s.v[r]

/-- `V[r] <- b`. -/
def State.setReg (s : State) (r : Reg) (b : Byte) : State := { s with v := s.v.set r b }

/-- The bytes into `V[k]`, `V[k+1]`, … in this order; no register has an index past 15. -/
def writeRegs (v : Vector Byte nreg) (k : Nat) : List Byte → Vector Byte nreg
  | [] => v
  | b :: bs => writeRegs (v.setIfInBounds k b) (k + 1) bs

/-- `V[0], V[1], … <- bytes` in this order. -/
def State.setRegs (s : State) (bytes : List Byte) : State := { s with v := writeRegs s.v 0 bytes }

/-- `I <- w`. -/
def State.setI (s : State) (w : Word) : State := { s with i := w }

/-- The advance `PC <- pc + 2`. -/
def State.advance (s : State) : State := { s with pc := s.pc + 2 }

/-- The skip: `PC <- pc + 4` if the condition holds, else `pc + 2` (R168). -/
def State.skipIf (s : State) (taken : Bool) : State := { s with pc := s.pc + if taken then 4 else 2 }

/-- `PC <- target`. -/
def State.jumpTo (s : State) (target : Word) : State := { s with pc := target }

/-! ### The call stack (R36) -/

/-- Whether the stack holds `STACK_DEPTH` entries; with `∞` it never does. -/
def State.stackFull (s : State) : Bool :=
  match s.config.stackDepth with
  | some depth => decide (depth ≤ s.stack.length)
  | none => false

/-- `push(w)`. -/
def State.push (s : State) (w : Word) : State := { s with stack := w :: s.stack }

/-- The stack with other entries, the top one first. -/
def State.setStack (s : State) (entries : List Word) : State := { s with stack := entries }

/-! ### Timers, the mode and the random source -/

def State.setDelay (s : State) (b : Byte) : State := { s with delay := b }

def State.setSound (s : State) (b : Byte) : State := { s with sound := b }

def State.setMode (s : State) (m : Mode) : State := { s with mode := m }

/-- The byte of this draw (R201). -/
def State.drawnByte (s : State) : Byte := Config.randomDraw s.draws

/-- The state whose next draw is a fresh one. -/
def State.afterDraw (s : State) : State := { s with draws := s.draws + 1 }

/-! ### The keypad (R299, R300) -/

/-- The key indices in ascending order. -/
def allKeys : List Key := [0, 1, 2, 3, 4, 5, 6, 7, 8, 9, 10, 11, 12, 13, 14, 15]

/-- `is_pressed(k)`. -/
def State.isPressed (s : State) (k : Key) : Bool := s.keys[k]

/-- `lowest_pressed()`. -/
def State.lowestPressed (s : State) : Option Key := allKeys.find? s.isPressed

/-- `keys[k] <- pressed`. -/
def State.setKey (s : State) (k : Key) (pressed : Bool) : State := { s with keys := s.keys.set k pressed }

/-! ### The frame (R265) and the rasterizer (R261, R262) -/

/-- `get(x, y)`; the index types keep it in bounds. -/
def Frame.getPixel (fb : Frame) (x : Col) (y : Row) : Bool := fb[y][x]

/-- `set(x, y, c)`. -/
def Frame.setPixel (fb : Frame) (x : Col) (y : Row) (c : Bool) : Frame := fb.set y (fb[y].set x c)

/-- `fb[y][x]`. -/
def State.pixel (s : State) (x : Col) (y : Row) : Bool := s.fb.getPixel x y

/-- `clear()`: every pixel Black; `dirty` is not touched. -/
def State.clearFrame (s : State) : State :=
  { s with fb := Vector.replicate fbH (Vector.replicate fbW false) }

/-- `dirty <- 1`. -/
def State.markDirty (s : State) : State := { s with dirty := true }

/-- What a draw works on: the frame, and whether a collision has happened in this draw (R263). -/
structure Canvas where
  fb : Frame
  hit : Bool
deriving DecidableEq, Repr

/-- One sprite bit at the unwrapped place `(X, Y)`: a 0 bit and a clipped pixel do nothing; a White pixel turns
Black and collides, a Black one turns White (R261, R262). -/
def plotBit (bit : Bool) (X Y : Nat) (c : Canvas) : Canvas :=
  if h : X < fbW ∧ Y < fbH then
    match bit, c.fb.getPixel ⟨X, h.1⟩ ⟨Y, h.2⟩ with
    | false, _ => c
    | true, true => { fb := c.fb.setPixel ⟨X, h.1⟩ ⟨Y, h.2⟩ false, hit := true }
    | true, false => { fb := c.fb.setPixel ⟨X, h.1⟩ ⟨Y, h.2⟩ true, hit := c.hit }
  else c

/-- The bit of a sprite row at column `k`, the most significant one leftmost (R261). -/
def spriteRowBit (b : Byte) (k : Nat) : Bool := b.getLsbD (7 - k)

/-- One sprite row: its eight bits from left to right. -/
def plotRow (b : Byte) (px Y : Nat) (c : Canvas) : Canvas :=
  (List.range 8).foldl (fun c k => plotBit (spriteRowBit b k) (px + k) Y c) c

/-- The rows of a sprite from the top one down. -/
def plotRows (px : Nat) : Nat → List Byte → Canvas → Canvas
  | _, [], c => c
  | Y, b :: bs, c => plotRows px (Y + 1) bs (plotRow b px Y c)

/-! ### Faults (R14, R138) -/

/-- `raise Fault(kind, info)`: the step ends and nothing it wrote stays written. -/
def raise (f : Fault) : Result := .fault f

/-- A step on the bytes of a read, or the read's fault. -/
def afterRead (r : Except Fault (List Byte)) (k : List Byte → Result) : Result :=
  match r with
  | .ok bytes => k bytes
  | .error f => raise f

/-- A step on the state of a write, or the write's fault. -/
def afterWrite (r : Except Fault State) (k : State → Result) : Result :=
  match r with
  | .ok s => k s
  | .error f => raise f

/-- Taking a fault: the state before the step with `faulted` recorded and nothing else changed (R131, R138,
R334). There is no return from it but `reset` (R335, R146). -/
def State.takeFault (s : State) (f : Fault) : State := { s with faulted := some f }

/-! ### Placing a program's first instruction -/

/-- The state with an instruction word where the next fetch reads it. A block that is faulted, or whose `PC`
cannot be fetched from, is first put where it fetches. -/
def State.placeInstruction (s : State) (w : Word) : State :=
  let at_ : Word := if s.pc.toNat + 2 > memSize then 0x200 else s.pc
  ({ s with pc := at_, faulted := none } : State).storeBytes at_.toNat
    [w.extractLsb' 8 8, w.extractLsb' 0 8]

end Sys2Proof.Machine
end

