-- ==== Sys2Proof/Machine/Flags.lean ====
section
/-! DEFINITION. Every computation of the flag `VF` (spec/42_arith_logic.md R196 to R203, spec/43_index_memory.md
R231) and the policy for the VF-alias words (R203). -/

namespace Sys2Proof.Machine

/-- A flag as the byte `VF` holds. -/
def flagByte (b : Bool) : Byte := if b then 1 else 0

/-- The carry of `a + b` (R196). -/
def carryFlag (a b : Byte) : Byte := flagByte (b.toNat > 255 - a.toNat)

/-- "No borrow" of `a − b`: 0 iff `b > a` (R197, R199). -/
def noBorrowFlag (a b : Byte) : Byte := flagByte (!decide (b.toNat > a.toNat))

/-- The bit a right shift puts out (R198). -/
def lowBitFlag (a : Byte) : Byte := a &&& 1

/-- The bit a left shift puts out (R200). -/
def highBitFlag (a : Byte) : Byte := a >>> 7

/-- The sum of `ADD I, Vx` before it wraps (R231). -/
def indexSum (i : Word) (b : Byte) : Nat := i.toNat + b.toNat

/-- The range flag of `ADD I, Vx` (R231). -/
def indexRangeFlag (i : Word) (b : Byte) : Byte := flagByte (indexSum i b > 0xFFF)

/-- A flagged operation of the 8-family (R203): the flag is written first, and the result is computed from the
registers as they stand after that write. -/
def State.flagThenResult (s : State) (flag : Byte) (x : Reg) (result : State → Byte) : State :=
  let flagged := s.setReg VF flag
  flagged.setReg x (result flagged)

/-- The check of `VF_ALIAS_POLICY` before any write (R203): `aliased` says whether the word `w` is a VF-alias
word. -/
def guardAlias (s : State) (aliased : Bool) (w : Word) (k : Result) : Result :=
  if s.config.vfAliasPolicy = .fault ∧ aliased = true then raise (.aliasUnsettled w) else k

end Sys2Proof.Machine
end

