-- ==== Sys2Proof/Machine/Arith.lean ====
section
/-! DEFINITION. Register loads, arithmetic, logic, shifts and the random byte (spec/42_arith_logic.md). -/

namespace Sys2Proof.Machine

/-- `LD Vx, kk` (R190). -/
def execLdXKK (x : Reg) (kk : Byte) (s : State) : Result := .next (s.setReg x kk).advance

/-- `ADD Vx, kk` (R191): no flag. -/
def execAddXKK (x : Reg) (kk : Byte) (s : State) : Result := .next (s.setReg x (s.reg x + kk)).advance

/-- `LD Vx, Vy` (R192). -/
def execLdXY (x y : Reg) (s : State) : Result := .next (s.setReg x (s.reg y)).advance

/-- `OR Vx, Vy` (R193): no flag. -/
def execOrXY (x y : Reg) (s : State) : Result := .next (s.setReg x (s.reg x ||| s.reg y)).advance

/-- `AND Vx, Vy` (R194): no flag. -/
def execAndXY (x y : Reg) (s : State) : Result := .next (s.setReg x (s.reg x &&& s.reg y)).advance

/-- `XOR Vx, Vy` (R195): no flag. -/
def execXorXY (x y : Reg) (s : State) : Result := .next (s.setReg x (s.reg x ^^^ s.reg y)).advance

/-- `ADD Vx, Vy` (R196). -/
def execAddXY (x y : Reg) (s : State) : Result :=
  guardAlias s (x == VF || y == VF) (encode (.addXY x y))
    (.next (s.flagThenResult (carryFlag (s.reg x) (s.reg y)) x fun t => t.reg x + t.reg y).advance)

/-- `SUB Vx, Vy` (R197). -/
def execSubXY (x y : Reg) (s : State) : Result :=
  guardAlias s (x == VF || y == VF) (encode (.subXY x y))
    (.next (s.flagThenResult (noBorrowFlag (s.reg x) (s.reg y)) x fun t => t.reg x - t.reg y).advance)

/-- `SHR Vx` (R198): `Vx` is shifted in place, `y` is not read. -/
def execShr (x y : Reg) (s : State) : Result :=
  guardAlias s (x == VF) (encode (.shr x y))
    (.next (s.flagThenResult (lowBitFlag (s.reg x)) x fun t => t.reg x >>> 1).advance)

/-- `SUBN Vx, Vy` (R199). -/
def execSubnXY (x y : Reg) (s : State) : Result :=
  guardAlias s (x == VF || y == VF) (encode (.subnXY x y))
    (.next (s.flagThenResult (noBorrowFlag (s.reg y) (s.reg x)) x fun t => t.reg y - t.reg x).advance)

/-- `SHL Vx` (R200): `Vx` is shifted in place, `y` is not read. -/
def execShl (x y : Reg) (s : State) : Result :=
  guardAlias s (x == VF) (encode (.shl x y))
    (.next (s.flagThenResult (highBitFlag (s.reg x)) x fun t => t.reg x <<< 1).advance)

/-- `RND Vx, kk` (R201): the drawn byte is a free value. -/
def execRnd (x : Reg) (kk : Byte) (s : State) : Result :=
  .next (s.afterDraw.setReg x (s.drawnByte &&& kk)).advance

end Sys2Proof.Machine
end

