-- ==== Sys2Proof/Machine/Operands.lean ====
section
/-! DEFINITION. The operand forms (spec/30_encoding.md R103, R104; spec/43_index_memory.md R232, R233,
R236). A register operand is `State.reg`, a byte immediate is used as it is. -/

namespace Sys2Proof.Machine

/-- `zext_16(nnn)` (R103). -/
def addressOperand (nnn : Addr12) : Word := nnn.setWidth 16

/-- The key operand of `SKP` and `SKNP`: `V[x] & 0xF` (R104, R300). -/
def State.keyOperand (s : State) (x : Reg) : Key := ((s.reg x).extractLsb' 0 4).toFin

/-- The base of every data access, the natural number in `I` (R236). -/
def State.dataAddress (s : State) : Nat := s.i.toNat

/-- How many registers and bytes the block `V0 .. Vx` has (R104). -/
def blockSize (x : Reg) : Nat := x.val + 1

/-- The register block `V[0] ++ … ++ V[x]` as bytes (R234). -/
def State.regBlock (s : State) (x : Reg) : List Byte := s.v.toList.take (blockSize x)

/-- `I` after a block transfer: `(I + x + 1) mod 2^16` (R236). -/
def State.indexPastBlock (s : State) (x : Reg) : Word := s.i + BitVec.ofNat 16 (blockSize x)

/-- The glyph address `V[x] * GLYPH_BYTES`, not masked to a digit (R232). -/
def glyphAddress (b : Byte) : Word := b.setWidth 16 * BitVec.ofNat 16 glyphBytes

/-- The decimal digits of a byte, hundreds first, a byte each (R233). -/
def decimalDigits (b : Byte) : List Byte :=
  [BitVec.ofNat 8 (b.toNat / 100), BitVec.ofNat 8 (b.toNat / 10 % 10), BitVec.ofNat 8 (b.toNat % 10)]

end Sys2Proof.Machine
end

