-- ==== Sys2Proof/Machine/Control.lean ====
section
/-! DEFINITION. Control transfer (spec/41_control_flow.md) and the default arm (spec/40_engine.md R137). -/

namespace Sys2Proof.Machine

/-- `JP nnn` (R160). -/
def execJp (nnn : Addr12) (s : State) : Result := .next (s.jumpTo (addressOperand nnn))

/-- `CALL nnn` (R161): the pushed address is that of the `CALL` itself. -/
def execCall (nnn : Addr12) (s : State) : Result :=
  if s.stackFull then raise (.stackOverflow s.pc)
  else .next ((s.push s.pc).jumpTo (addressOperand nnn))

/-- `RET` (R162): the popped address plus 2. -/
def execRet (s : State) : Result :=
  match s.stack with
  | [] => raise (.stackUnderflow s.pc)
  | top :: rest => .next ((s.setStack rest).jumpTo (top + 2))

/-- `JP V0, nnn` (R167): the sum is modulo 2^16, not masked to 12 bits. -/
def execJpV0 (nnn : Addr12) (s : State) : Result :=
  .next (s.jumpTo (addressOperand nnn + (s.reg 0).setWidth 16))

/-- `SE Vx, kk` (R163). -/
def execSeXKK (x : Reg) (kk : Byte) (s : State) : Result := .next (s.skipIf (s.reg x == kk))

/-- `SNE Vx, kk` (R164). -/
def execSneXKK (x : Reg) (kk : Byte) (s : State) : Result := .next (s.skipIf (s.reg x != kk))

/-- `SE Vx, Vy` (R165). -/
def execSeXY (x y : Reg) (s : State) : Result := .next (s.skipIf (s.reg x == s.reg y))

/-- `SNE Vx, Vy` (R166). -/
def execSneXY (x y : Reg) (s : State) : Result := .next (s.skipIf (s.reg x != s.reg y))

/-- `NOP_UNMATCHED` (R137): the word is not read. -/
def execNopUnmatched (_w : Word) (s : State) : Result := .next s.advance

end Sys2Proof.Machine
end

