-- ==== Sys2Proof/Machine/Display.lean ====
section
/-! DEFINITION. The display instructions (spec/44_display.md). -/

namespace Sys2Proof.Machine

/-- `CLS` (R260). -/
def execCls (s : State) : Result := .next s.clearFrame.markDirty.advance

/-- A draw of the rows at `(px, py)`: the frame, `VF` as the collision flag, `dirty` (R261, R263). -/
def State.drawSprite (s : State) (px py : Nat) (rows : List Byte) : State :=
  let canvas := plotRows px py rows { fb := s.fb, hit := false }
  ({ s with fb := canvas.fb, dirty := true } : State).setReg VF (flagByte canvas.hit)

/-- `DRW Vx, Vy, n` (R261): the place is latched and the rows are read before `VF` is written. -/
def execDrw (x y : Reg) (n : Height) (s : State) : Result :=
  guardAlias s (x == VF || y == VF) (encode (.drw x y n))
    (afterRead (s.memRead s.dataAddress n.val) fun rows =>
      .next (s.drawSprite (s.reg x).toNat (s.reg y).toNat rows).advance)

end Sys2Proof.Machine
end

