-- ==== Sys2Proof/Machine/Index.lean ====
section
/-! DEFINITION. The index register and the memory instructions (spec/43_index_memory.md). -/

namespace Sys2Proof.Machine

/-- `LD I, nnn` (R230). -/
def execLdI (nnn : Addr12) (s : State) : Result := .next (s.setI (addressOperand nnn)).advance

/-- `ADD I, Vx` (R231): the sum first, the flag after it, both from the old `Vx`. -/
def execAddIX (x : Reg) (s : State) : Result :=
  guardAlias s (x == VF) (encode (.addIX x))
    (.next ((s.setI (BitVec.ofNat 16 (indexSum s.i (s.reg x)))).setReg VF
      (indexRangeFlag s.i (s.reg x))).advance)

/-- `LD F, Vx` (R232). -/
def execLdFX (x : Reg) (s : State) : Result := .next (s.setI (glyphAddress (s.reg x))).advance

/-- `LD B, Vx` (R233). -/
def execLdBX (x : Reg) (s : State) : Result :=
  afterWrite (s.memWrite s.dataAddress (decimalDigits (s.reg x))) fun t => .next t.advance

/-- `LD [I], Vx` (R234): the block, then `I` past it. -/
def execLdMemX (x : Reg) (s : State) : Result :=
  afterWrite (s.memWrite s.dataAddress (s.regBlock x)) fun t => .next (t.setI (s.indexPastBlock x)).advance

/-- `LD Vx, [I]` (R235): the block, then `I` past it. -/
def execLdXMem (x : Reg) (s : State) : Result :=
  afterRead (s.memRead s.dataAddress (blockSize x)) fun bytes =>
    .next ((s.setRegs bytes).setI (s.indexPastBlock x)).advance

end Sys2Proof.Machine
end

