-- ==== Sys2Proof/Machine/TimersKeys.lean ====
section
/-! DEFINITION. The timer and key instructions (spec/45_timers_keys.md). -/

namespace Sys2Proof.Machine

/-- `LD Vx, DT` (R290): the value before this update's tick. -/
def execLdXDT (x : Reg) (s : State) : Result := .next (s.setReg x s.delay).advance

/-- `LD DT, Vx` (R291). -/
def execLdDTX (x : Reg) (s : State) : Result := .next (s.setDelay (s.reg x)).advance

/-- `LD ST, Vx` (R292). -/
def execLdSTX (x : Reg) (s : State) : Result := .next (s.setSound (s.reg x)).advance

/-- `SKP Vx` (R293). -/
def execSkp (x : Reg) (s : State) : Result := .next (s.skipIf (s.isPressed (s.keyOperand x)))

/-- `SKNP Vx` (R294). -/
def execSknp (x : Reg) (s : State) : Result := .next (s.skipIf (!s.isPressed (s.keyOperand x)))

/-- `LD Vx, K` (R295): with no key down the engine parks and `PC` holds. -/
def execLdXK (x : Reg) (s : State) : Result :=
  match s.lowestPressed with
  | none => .next (s.setMode .waitingForKey)
  | some k => .next ((s.setReg x (BitVec.ofNat 8 k.val)).setMode .running).advance

end Sys2Proof.Machine
end

