-- ==== Sys2Proof/Machine/Dispatch.lean ====
section
/-! DEFINITION. `Execute(arm, w)` (spec/40_engine.md R134): one arm per instruction, each performing exactly
the rule spec/30_encoding.md R105 names for it. -/

namespace Sys2Proof.Machine

def exec (i : Instr) (s : State) : Host.Outcome State Fault Refusal :=
  match i with
  | .cls => Sys2Proof.Machine.execCls s
  | .ret => Sys2Proof.Machine.execRet s
  | .jp nnn => Sys2Proof.Machine.execJp nnn s
  | .call nnn => Sys2Proof.Machine.execCall nnn s
  | .seXKK x kk => Sys2Proof.Machine.execSeXKK x kk s
  | .sneXKK x kk => Sys2Proof.Machine.execSneXKK x kk s
  | .seXY x y => Sys2Proof.Machine.execSeXY x y s
  | .ldXKK x kk => Sys2Proof.Machine.execLdXKK x kk s
  | .addXKK x kk => Sys2Proof.Machine.execAddXKK x kk s
  | .ldXY x y => Sys2Proof.Machine.execLdXY x y s
  | .orXY x y => Sys2Proof.Machine.execOrXY x y s
  | .andXY x y => Sys2Proof.Machine.execAndXY x y s
  | .xorXY x y => Sys2Proof.Machine.execXorXY x y s
  | .addXY x y => Sys2Proof.Machine.execAddXY x y s
  | .subXY x y => Sys2Proof.Machine.execSubXY x y s
  | .shr x y => Sys2Proof.Machine.execShr x y s
  | .subnXY x y => Sys2Proof.Machine.execSubnXY x y s
  | .shl x y => Sys2Proof.Machine.execShl x y s
  | .sneXY x y => Sys2Proof.Machine.execSneXY x y s
  | .ldI nnn => Sys2Proof.Machine.execLdI nnn s
  | .jpV0 nnn => Sys2Proof.Machine.execJpV0 nnn s
  | .rnd x kk => Sys2Proof.Machine.execRnd x kk s
  | .drw x y n => Sys2Proof.Machine.execDrw x y n s
  | .skp x => Sys2Proof.Machine.execSkp x s
  | .sknp x => Sys2Proof.Machine.execSknp x s
  | .ldXDT x => Sys2Proof.Machine.execLdXDT x s
  | .ldXK x => Sys2Proof.Machine.execLdXK x s
  | .ldDTX x => Sys2Proof.Machine.execLdDTX x s
  | .ldSTX x => Sys2Proof.Machine.execLdSTX x s
  | .addIX x => Sys2Proof.Machine.execAddIX x s
  | .ldFX x => Sys2Proof.Machine.execLdFX x s
  | .ldBX x => Sys2Proof.Machine.execLdBX x s
  | .ldMemX x => Sys2Proof.Machine.execLdMemX x s
  | .ldXMem x => Sys2Proof.Machine.execLdXMem x s
  | .nopUnmatched w => Sys2Proof.Machine.execNopUnmatched w s

end Sys2Proof.Machine
end

