-- ==== Sys2Proof/Machine/Cycle.lean ====
section
/-! DEFINITION. The update cycle (spec/40_engine.md R131 to R139): fetch, decode, execute, the timer tick and
the frame output. -/

namespace Sys2Proof.Machine

/-- The outputs of one `update` (R46), which nothing stores. `status` is (`mode`, `faulted`). -/
structure Outputs where
  present : Bool
  tone : Bool
  mode : Mode
  faulted : Option Fault
deriving DecidableEq, Repr

/-- Fetch (R133): `MemRead(pc, 2)` as one big-endian word. -/
def State.fetch (s : State) : Except Fault Word :=
  match s.memRead s.pc.toNat 2 with
  | .ok bytes => .ok (bigEndian bytes)
  | .error f => .error f

/-- The end of a step (R132, R139): `mode` is Running after every instruction but `LD Vx, K`, which writes it
itself. -/
def State.settleMode (s : State) : Instr → State
  | .ldXK _ => s
  | .cls | .ret | .jp _ | .call _ | .seXKK _ _ | .sneXKK _ _ | .seXY _ _ | .ldXKK _ _ | .addXKK _ _
  | .ldXY _ _ | .orXY _ _ | .andXY _ _ | .xorXY _ _ | .addXY _ _ | .subXY _ _ | .shr _ _ | .subnXY _ _
  | .shl _ _ | .sneXY _ _ | .ldI _ | .jpV0 _ | .rnd _ _ | .drw _ _ _ | .skp _ | .sknp _ | .ldXDT _
  | .ldDTX _ | .ldSTX _ | .addIX _ | .ldFX _ | .ldBX _ | .ldMemX _ | .ldXMem _ | .nopUnmatched _ =>
    s.setMode .running

/-- A decoded instruction executed, and the mode settled. -/
def runInstr (i : Instr) (s : State) : Result :=
  match exec i s with
  | .next t => .next (t.settleMode i)
  | .fault f => .fault f
  | .refused r => .refused r

/-- `Step()` (R132): fetch, decode, the check of `STRICT_DECODE`, execute. -/
def instructionStep (s : State) : Result :=
  match s.fetch with
  | .error f => raise f
  | .ok w =>
    if s.config.strictDecode = true ∧ unsettledWord w = true then raise (.decodeUnsettled w)
    else runInstr (decodeWord w) s

/-- A timer's decrement: 1 less while it is nonzero (R296). -/
def tickTimer (b : Byte) : Byte := if b = 0 then 0 else b - 1

/-- The `tone` of a tick: `sound` was exactly 1 before it (R297). -/
def State.toneDue (s : State) : Bool := s.sound == 1

/-- `TimerTick()` (R296) on the state. -/
def State.timerTick (s : State) : State :=
  { s with delay := tickTimer s.delay, sound := tickTimer s.sound }

/-- `FrameOut()` (R264) on the state: `dirty` has become the `present` output. -/
def State.frameOut (s : State) : State := { s with dirty := false }

/-- The part of an update after a completed step: timer tick, then frame output (R131). -/
def State.finishUpdate (s : State) : State := s.timerTick.frameOut

/-- What a block reports when no step completed (R131, R146). -/
def State.quietOutputs (s : State) : Outputs :=
  { present := false, tone := false, mode := s.mode, faulted := s.faulted }

/-- What an update reports after a completed step that left `s`. -/
def State.stepOutputs (s : State) : Outputs :=
  { present := s.dirty, tone := s.toneDue, mode := s.mode, faulted := s.faulted }

/-- `Update()` (R131): the state after it and its outputs. A fault of the step is taken here; a refusal,
which no instruction answers, would end the run. -/
def update (s : State) : Host.Outcome (State × Outputs) Fault Refusal :=
  match s.faulted with
  | some _ => .next (s, s.quietOutputs)
  | none =>
    match instructionStep s with
    | .next t => .next (t.finishUpdate, t.stepOutputs)
    | .fault f => .next (s.takeFault f, (s.takeFault f).quietOutputs)
    | .refused r => .refused r

/-- The state part of `update`. -/
def updateState (s : State) : Result :=
  match update s with
  | .next (t, _) => .next t
  | .fault f => .fault f
  | .refused r => .refused r

end Sys2Proof.Machine
end

