-- ==== Sys2Proof/Machine/Step.lean ====
section
/-! DEFINITION. The machine's step: one `update` transaction (spec/40_engine.md R131), and where a program's
first instruction is placed. -/

namespace Sys2Proof.Machine

/-- One `update`: one instruction, one timer tick, the frame output (R131). -/
def step (s : State) : Host.Outcome State Fault Refusal := updateState s

/-- The state with a table row's word where `step` fetches its next instruction. It stands for the host's
`load` of a program that begins with that word (R373, log entry 8). -/
def State.withFetchWord (s : State) (nbits w : Nat) : State := s.placeInstruction (tableWord nbits w)

end Sys2Proof.Machine
end

