-- ==== Sys2Proof/Machine/Ports.lean ====
section
/-! DEFINITION. The host's transactions (spec/40_engine.md R130): `update`, `key_event`, `load` and `reset`, and
runs of them, finite and infinite, with what they report (R147). -/

namespace Sys2Proof.Machine

/-- `KEYMAP(e)` (R9). -/
def lookupKey : List (Nat × Key) → Nat → Option Key
  | [], _ => none
  | (e', k) :: m, e => if e' = e then some k else lookupKey m e

/-- `key_event(e, pressed)` (R298): an unmapped id is a no-op. -/
def State.keyEvent (s : State) (e : Nat) (pressed : Bool) : State :=
  match lookupKey s.config.keymap e with
  | none => s
  | some k => s.setKey k pressed

/-- What the host hands to `load` (R130): the program's bytes, or the failure to obtain them. -/
inductive LoadArgument where
  | program (bytes : List Byte)
  | loadFailed
deriving DecidableEq, Repr

/-- `load(p)` (R373): at most `PROG_MAX` bytes at 0x200, `PC` to 0x200, nothing else. `load(LoadFailed)`
changes nothing (R375). -/
def State.load (s : State) : LoadArgument → State
  | .program bytes => (s.storeBytes progBase (bytes.take progMax)).jumpTo 0x200
  | .loadFailed => s

/-- `reset` (R372): the state after construction with the same parameters. The draws go on from where they are,
so that no byte after the reset is bound to one before it (R201, log entry 2). -/
def State.hostReset (s : State) : State := { State.construct s.config with draws := s.draws }

/-- The four input transactions (R130). -/
inductive Transaction where
  | update
  | keyEvent (e : Nat) (pressed : Bool)
  | load (p : LoadArgument)
  | reset
deriving DecidableEq, Repr

/-- The effect of one transaction on the state; `report` has the outputs as well. -/
def transact (t : Transaction) (s : State) : Result :=
  match t with
  | .update => step s
  | .keyEvent e pressed => .next (s.keyEvent e pressed)
  | .load p => .next (s.load p)
  | .reset => .next s.hostReset

/-! ### Finite runs -/

/-- The state after a finite run: the transactions in the order issued (R80, R147). -/
def runTransactions : List Transaction → State → Result
  | [], s => .next s
  | t :: ts, s =>
    match transact t s with
    | .next s' => runTransactions ts s'
    | .fault f => .fault f
    | .refused r => .refused r

/-! ### What the block reports (R46, R147) -/

/-- What the host sees after a transaction: the state, and the outputs where the transaction was an `update`; no
other has any (R130). -/
structure Report where
  state : State
  outputs : Option Outputs
deriving DecidableEq, Repr

/-- What one transaction reports. -/
def report (t : Transaction) (s : State) : Host.Outcome Report Fault Refusal :=
  match t with
  | .update => andThen (update s) fun r => .next { state := r.1, outputs := some r.2 }
  | .keyEvent e pressed => .next { state := s.keyEvent e pressed, outputs := none }
  | .load p => .next { state := s.load p, outputs := none }
  | .reset => .next { state := s.hostReset, outputs := none }

/-- What a finite run reports, transaction by transaction. -/
def reports : List Transaction → State → Host.Outcome (List Report) Fault Refusal
  | [], _ => .next []
  | t :: ts, s => andThen (report t s) fun r => andThen (reports ts r.state) fun rs => .next (r :: rs)

/-! ### Infinite runs (R147) -/

/-- The state of a run without end after its first `n` transactions. -/
def runState (inputs : Nat → Transaction) (s : State) : Nat → Result
  | 0 => .next s
  | n + 1 => andThen (runState inputs s n) (transact (inputs n))

/-- What the transaction of index `n` of a run without end reports. -/
def runReport (inputs : Nat → Transaction) (s : State) (n : Nat) : Host.Outcome Report Fault Refusal :=
  andThen (runState inputs s n) (report (inputs n))

end Sys2Proof.Machine
end

