-- ==== Sys2Proof/Safety.lean ====
section
/-! DEFINITION. The terms the claims use: what a step may change (frames), what a good state is, what a sprite
covers, and which instructions a whole-machine rule names. -/

namespace Sys2Proof

/-! ### Instructions by what they write -/

/-- The instructions that compute the flag `VF` (R31). -/
def Instr.writesFlag : Instr → Bool
  | .addXY _ _ | .subXY _ _ | .shr _ _ | .subnXY _ _ | .shl _ _ | .addIX _ | .drw _ _ _ => true
  | _ => false

/-- The general registers an instruction names as its destination. -/
def Instr.destination : Instr → Reg → Bool
  | .ldXKK x _, r | .addXKK x _, r | .ldXY x _, r | .orXY x _, r | .andXY x _, r | .xorXY x _, r
  | .addXY x _, r | .subXY x _, r | .shr x _, r | .subnXY x _, r | .shl x _, r | .rnd x _, r
  | .ldXDT x, r | .ldXK x, r => decide (r = x)
  | .ldXMem x, r => decide (r ≤ x)
  | _, _ => false

/-- The instructions that set `PC` otherwise than by the plain advance (R136). -/
def Instr.movesPc : Instr → Bool
  | .ret | .jp _ | .call _ | .jpV0 _ | .seXKK _ _ | .sneXKK _ _ | .seXY _ _ | .sneXY _ _
  | .skp _ | .sknp _ | .ldXK _ => true
  | _ => false

/-- The instructions that skip (R136, R168). -/
def Instr.skips : Instr → Bool
  | .seXKK _ _ | .sneXKK _ _ | .seXY _ _ | .sneXY _ _ | .skp _ | .sknp _ => true
  | _ => false

/-- The VF-alias words (R203), by the instruction they decode to. -/
def Instr.namesFlag : Instr → Bool
  | .addXY x y | .subXY x y | .subnXY x y | .drw x y _ => decide (x = VF ∨ y = VF)
  | .shr x _ | .shl x _ | .addIX x => decide (x = VF)
  | _ => false

/-- How many bytes at `I` an instruction accesses (R236); 0 for one that accesses none. -/
def Instr.dataBytes : Instr → Nat
  | .drw _ _ n => n.val
  | .ldBX _ => 3
  | .ldMemX x | .ldXMem x => x.val + 1
  | _ => 0

end Sys2Proof

namespace Sys2Proof.Machine

/-! ### Frames -/

/-- A piece of the state that a claim can say is unchanged. Memory and the frame are read one byte and one
pixel at a time. -/
inductive Component where
  | reg (r : Reg)
  | pc
  | index
  | stack
  | delay
  | sound
  | mode
  | dirty
  | key (k : Key)
  | pixel (x : Col) (y : Row)
  | byte (a : Nat)
  | faulted
  | config
  | draws
deriving DecidableEq, Repr

/-- The two states agree on a component. -/
def SameAt (s t : State) : Component → Prop
  | .reg r => t.reg r = s.reg r
  | .pc => t.pc = s.pc
  | .index => t.i = s.i
  | .stack => t.stack = s.stack
  | .delay => t.delay = s.delay
  | .sound => t.sound = s.sound
  | .mode => t.mode = s.mode
  | .dirty => t.dirty = s.dirty
  | .key k => t.isPressed k = s.isPressed k
  | .pixel x y => t.pixel x y = s.pixel x y
  | .byte a => t.readByte a = s.readByte a
  | .faulted => t.faulted = s.faulted
  | .config => t.config = s.config
  | .draws => t.draws = s.draws

/-- Every component but the allowed ones is the same in `t` as in `s`. -/
def ChangesOnly (s t : State) (allowed : Component → Prop) : Prop := ∀ c, ¬ allowed c → SameAt s t c

/-- The components of the `n` bytes at `a`. -/
def InBytes (a n : Nat) (c : Component) : Prop := ∃ k, k < n ∧ c = .byte (a + k)

/-! ### Good states and runs -/

/-- A block that has not faulted: its next `update` performs a step (R131, R146). -/
abbrev State.live (s : State) : Prop := s.faulted = none

/-- The invariant of every state between transactions: the memory is in its canonical form; the stack is
within `STACK_DEPTH` (R36) and holds only addresses a fetch can read (R161); `dirty` is clear (R264); the
two refusing faults occur only under the parameters that allow them (R145). -/
structure State.Inv (s : State) : Prop where
  memory : Memory.wf s.config s.mem
  depth : ∀ d, s.config.stackDepth = some d → s.stack.length ≤ d
  returns : ∀ w ∈ s.stack, w.toNat + 2 ≤ memSize
  clean : s.dirty = false
  strict : ∀ w, s.faulted = some (.decodeUnsettled w) → s.config.strictDecode = true
  aliased : ∀ w, s.faulted = some (.aliasUnsettled w) → s.config.vfAliasPolicy = .fault

/-- The instruction word at `PC`, as memory holds it (R78). -/
def State.wordAtPc (s : State) : Word := s.readByte s.pc.toNat ++ s.readByte (s.pc.toNat + 1)

/-- A step of this state reaches the execution of the word at `PC`: the block is live, the fetch is in range
and strict decoding does not refuse the word (R132). -/
structure State.Executes (s : State) : Prop where
  live : s.faulted = none
  fetched : s.pc.toNat + 2 ≤ memSize
  settled : ¬ (s.config.strictDecode = true ∧ unsettledWord s.wordAtPc = true)

/-- The words R114 lists, by their numbers: (a), (b) and (c) of the rule in turn. -/
def UnsettledByRule (w : Word) : Prop :=
  (w.toNat / 4096 = 0 ∧ w ≠ 0x00E0 ∧ w ≠ 0x00EE ∧
    (w.toNat % 256 = 0xE0 ∨ w.toNat % 256 = 0xEE ∨ w.toNat % 16 = 0 ∨ w.toNat % 16 = 0xE)) ∨
  ((w.toNat / 4096 = 5 ∨ w.toNat / 4096 = 9) ∧ w.toNat % 16 ≠ 0) ∨
  (w.toNat / 4096 = 0xE ∧ w.toNat % 256 ≠ 0x9E ∧ w.toNat % 256 ≠ 0xA1 ∧
    (w.toNat % 16 = 0xE ∨ w.toNat % 16 = 1))

/-- `VF_ALIAS_POLICY` lets an instruction with the given register operands execute (R203). -/
def State.admitsOperands (s : State) (operands : List Reg) : Prop :=
  s.config.vfAliasPolicy = .fault → VF ∉ operands

/-- Where the fault of a step from `s` comes from (R331): the check that failed and the info it records. -/
def Fault.hasCause (f : Fault) (s : State) : Prop :=
  match f with
  | .memRange a =>
    (a = s.pc.toNat ∧ memSize < s.pc.toNat + 2) ∨
    (a = s.i.toNat ∧ (decodeWord s.wordAtPc).dataBytes ≠ 0 ∧
      memSize < s.i.toNat + (decodeWord s.wordAtPc).dataBytes)
  | .stackOverflow p =>
    p = s.pc ∧ (∃ nnn, decodeWord s.wordAtPc = .call nnn) ∧
      ∃ d, s.config.stackDepth = some d ∧ d ≤ s.stack.length
  | .stackUnderflow p => p = s.pc ∧ decodeWord s.wordAtPc = .ret ∧ s.stack = []
  | .decodeUnsettled w => w = s.wordAtPc ∧ s.config.strictDecode = true ∧ UnsettledByRule w
  | .aliasUnsettled w =>
    w = s.wordAtPc ∧ s.config.vfAliasPolicy = .fault ∧ (decodeWord w).namesFlag = true

/-! ### Sprites (R261, R262) -/

/-- Whether the sprite of the given rows, drawn at `(px, py)` without any wrap, has a lit bit at `(X, Y)`. -/
def spriteLit (rows : List Byte) (px py X Y : Nat) : Bool :=
  decide (px ≤ X ∧ X < px + 8 ∧ py ≤ Y ∧ Y < py + rows.length) &&
    (rows.getD (Y - py) 0).getLsbD (7 - (X - px))

/-- The sprite rows a draw of height `n` reads. -/
def State.spriteRows (s : State) (n : Height) : List Byte :=
  (List.range n.val).map fun k => s.readByte (s.i.toNat + k)

end Sys2Proof.Machine
end

