-- ==== Sys2Proof/Certificates/Slice0/Obligations.lean ====
section
/-! DEFINITION. The statements for the provers. Each docstring names the rules of spec/ it formalises;
`ChangesOnly s t allowed` says that every register, byte, pixel, key and field but the allowed ones is the same
in `t` as in `s`. -/

open Sys2Proof Sys2Proof.Machine

/-! ### Encoding -/

/-- Decoding the word of a well-formed instruction, or its two bytes, gives the instruction back (R102, R105,
R110, R115). That the default arm has its word to give back, and the shifts their `y`, is the model's choice (log
entry 11). -/
def Obligations.DecodeOfEncodeIsIdentity : Prop :=
  ∀ i : Instr, i.wf = true →
    decodeWord (encode i) = i ∧ decode (bytesOfWord (encode i)) = .ok (i, [])

/-- R111: the decoder is total, every word decodes to exactly one arm, and no two rows match one word. -/
def Obligations.EveryWordDecodesToItsOneArm : Prop :=
  ∀ w : Word,
    (decodeWord w).wf = true ∧
    (∀ r ∈ opcodeRows, r.matchesWord w = true ↔ (decodeWord w).mnemonic = r.mnemonic) ∧
    (∀ r ∈ opcodeRows, ∀ r' ∈ opcodeRows, r.matchesWord w = true → r'.matchesWord w = true → r = r') ∧
    (decodeWord w = .nopUnmatched w ↔ ∀ r ∈ opcodeRows, r.matchesWord w = false)

/-- Encoding what was decoded gives back every bit the decoder examines or keeps: only nibble 2 of the `none`
format and the low nibble of the 5- and 9-families, which R102 and R110 do not examine, are lost, and come back as
the zeros of R115's words. Which unexamined bits an instruction keeps is the model's choice (log entry 11): the
default arm keeps its whole word, though R137 gives it no operands, and the shifts keep `y`, though R198 and R200
do not read it. -/
def Obligations.ReencodingLosesOnlyUnexaminedBits : Prop :=
  ∀ w : Word,
    ((decodeWord w = .cls ∨ decodeWord w = .ret) → encode (decodeWord w) = w &&& 0xF0FF) ∧
    (∀ x y, (decodeWord w = .seXY x y ∨ decodeWord w = .sneXY x y) →
      encode (decodeWord w) = w &&& 0xFFF0) ∧
    (decodeWord w ≠ .cls → decodeWord w ≠ .ret →
      (∀ x y, decodeWord w ≠ .seXY x y ∧ decodeWord w ≠ .sneXY x y) → encode (decodeWord w) = w)

/-- R113 and R137: the unmatched words, those of no row, are exactly those listed, with the counts the rule gives for each family,
and each of them only advances `PC` by 2. -/
def Obligations.UnmatchedWordsOnlyAdvance : Prop :=
  (∀ w : Word, decodeWord w = .nopUnmatched w ↔ unmatchedWord w = true) ∧
  (∀ w : Word, unmatchedWord w = true ↔ ∀ r ∈ opcodeRows, r.matchesWord w = false) ∧
  (∀ w : Word, unmatchedWord w = true →
    fieldOp w = 0x0 ∨ fieldOp w = 0x8 ∨ fieldOp w = 0xE ∨ fieldOp w = 0xF) ∧
  ((List.range 4096).countP fun k => unmatchedWord (BitVec.ofNat 16 (0x0000 + k))) = 4064 ∧
  ((List.range 4096).countP fun k => unmatchedWord (BitVec.ofNat 16 (0x8000 + k))) = 1792 ∧
  ((List.range 4096).countP fun k => unmatchedWord (BitVec.ofNat 16 (0xE000 + k))) = 4064 ∧
  ((List.range 4096).countP fun k => unmatchedWord (BitVec.ofNat 16 (0xF000 + k))) = 3952 ∧
  (∀ (w : Word) (s : State), ∃ t, exec (.nopUnmatched w) s = .next t ∧
    t.pc = s.pc + 2 ∧ ChangesOnly s t fun c => c = .pc)

/-- Words written out from the patterns of R105 and the listings of spec/95_test_vectors.md decode to the
instructions they stand for. -/
def Obligations.ListedWordsDecode : Prop :=
  decodeWord 0x6005 = .ldXKK 0 5 ∧ decodeWord 0x6103 = .ldXKK 1 3 ∧ decodeWord 0x8014 = .addXY 0 1 ∧
  decodeWord 0x00E0 = .cls ∧ decodeWord 0x00EE = .ret ∧ decodeWord 0x220E = .call 0x20E ∧
  decodeWord 0x3A00 = .seXKK 10 0 ∧ decodeWord 0x9120 = .sneXY 1 2 ∧ decodeWord 0xB300 = .jpV0 0x300 ∧
  decodeWord 0xC30F = .rnd 3 0x0F ∧ decodeWord 0xD012 = .drw 0 1 2 ∧ decodeWord 0xE29E = .skp 2 ∧
  decodeWord 0xF20A = .ldXK 2 ∧ decodeWord 0xF355 = .ldMemX 3 ∧ decodeWord 0x8008 = .nopUnmatched 0x8008

/-- R100: a decoder consumes exactly two bytes, big-endian; with fewer there is no instruction. -/
def Obligations.DecoderConsumesTwoBytes : Prop :=
  ∀ bytes : List Byte,
    (bytes.length < 2 → decode bytes = .error .truncated) ∧
    (∀ hi lo rest, bytes = hi :: lo :: rest →
      ∃ w : Word, w.toNat = 256 * hi.toNat + lo.toNat ∧ decode bytes = .ok (decodeWord w, rest))

/-! ### The update cycle -/

/-- Where the block is live, the fetch in range and the word not refused, one `update` is `exec` of the decoded
instruction: a completed one is followed by the mode rule, the tick and the frame output, a fault is taken on
the old state (R131, R132). -/
def Obligations.StepRunsTheDecodedInstruction : Prop :=
  ∀ s : State, s.Executes →
    (∀ t, exec (decodeWord s.wordAtPc) s = .next t →
      step s = .next (t.settleMode (decodeWord s.wordAtPc)).finishUpdate ∧
      update s = .next ((t.settleMode (decodeWord s.wordAtPc)).finishUpdate,
        (t.settleMode (decodeWord s.wordAtPc)).stepOutputs)) ∧
    (∀ f, exec (decodeWord s.wordAtPc) s = .fault f →
      step s = .next (s.takeFault f) ∧ update s = .next (s.takeFault f, (s.takeFault f).quietOutputs))

/-- R133: the fetch reads the two bytes at `PC`, the first one high, at any `PC` below 0xFFF, and raises
`MemRange(pc)` at any other. -/
def Obligations.FetchReadsTwoBytesOrFaults : Prop :=
  ∀ s : State,
    (s.pc.toNat < 0xFFF → ∃ w : Word, s.fetch = .ok w ∧
      w.toNat = 256 * (s.readByte s.pc.toNat).toNat + (s.readByte (s.pc.toNat + 1)).toNat) ∧
    (0xFFF ≤ s.pc.toNat → s.fetch = .error (.memRange s.pc.toNat) ∧
      (s.live → update s = .next (s.takeFault (.memRange s.pc.toNat),
        { present := false, tone := false, mode := s.mode, faulted := some (.memRange s.pc.toNat) })))

/-- R114: with `STRICT_DECODE` the step that fetches a listed word raises `DecodeUnsettled` and changes nothing
else; every other word, and every word without it, is executed. -/
def Obligations.StrictDecodeRefusesTheListedWords : Prop :=
  ∀ s : State, s.live → s.pc.toNat + 2 ≤ memSize →
    (s.config.strictDecode = true → UnsettledByRule s.wordAtPc →
      step s = .next { s with faulted := some (.decodeUnsettled s.wordAtPc) }) ∧
    (s.config.strictDecode = true → ¬ UnsettledByRule s.wordAtPc → s.Executes) ∧
    (s.config.strictDecode = false → s.Executes)

/-- R146: a faulted block performs no step and no tick and reports the fault; key events and loads still act;
only `reset` clears the fault. -/
def Obligations.FaultedBlockIsHaltedUntilReset : Prop :=
  ∀ (s : State) (f : Fault), s.faulted = some f →
    update s = .next (s, { present := false, tone := false, mode := s.mode, faulted := some f }) ∧
    step s = .next s ∧
    (∀ e k pressed, lookupKey s.config.keymap e = some k → (s.keyEvent e pressed).isPressed k = pressed) ∧
    (∀ bytes : List Byte, (s.load (.program bytes)).pc = 0x200 ∧
      ∀ k, k < bytes.length → k < progMax →
        (s.load (.program bytes)).readByte (progBase + k) = bytes.getD k 0) ∧
    (∀ t s', transact t s = .next s' → s'.faulted = none → t = .reset) ∧
    s.hostReset.faulted = none

/-- R138: a step that ends in a fault leaves the state exactly as before it except for `faulted`. -/
def Obligations.FaultingStepChangesOnlyFaulted : Prop :=
  ∀ s t : State, s.live → step s = .next t → t.faulted ≠ none → t = { s with faulted := t.faulted }

/-- Every `update` of every state answers a next state, and no instruction is refused: a run has no other end
than the host's (R113, R145, R147). -/
def Obligations.EveryUpdateAnswersAState : Prop :=
  (∀ s : State, ∃ t o, update s = .next (t, o) ∧ step s = .next t) ∧
  (∀ (i : Instr) (s : State) (r : Refusal), exec i s ≠ .refused r)

/-- R331 and R145: a step's fault is one of the five, each from its own failed check with its own info; with the
default parameters only the first three kinds occur. That a `CALL` faults with `STACK_DEPTH` entries or more,
where R161 and R331 say `STACK_DEPTH` entries, is the model's choice for stacks no run reaches (log entry 7). -/
def Obligations.EveryFaultHasItsCause : Prop :=
  ∀ (s t : State) (f : Fault), s.live → step s = .next t → t.faulted = some f →
    f.hasCause s ∧
    (s.config.strictDecode = false → s.config.vfAliasPolicy = .sequential →
      (∃ a, f = .memRange a) ∨ (∃ p, f = .stackOverflow p) ∨ (∃ p, f = .stackUnderflow p))

/-- R139: after a completed step `mode` is Running, except after an `LD Vx, K` that found no key down; `key_event`
and `load` keep it and `reset` sets Running. -/
def Obligations.ModeTellsWhetherTheStepParked : Prop :=
  (∀ s t : State, s.Executes → step s = .next t → t.faulted = none →
    (t.mode = .waitingForKey ↔
      (∃ x, decodeWord s.wordAtPc = .ldXK x) ∧ ∀ k, s.isPressed k = false)) ∧
  (∀ (s : State) (e : Nat) (pressed : Bool) (p : LoadArgument),
    (s.keyEvent e pressed).mode = s.mode ∧ (s.load p).mode = s.mode ∧ s.hostReset.mode = .running)

/-- Every step keeps the invariant: canonical memory, a bounded stack of fetchable return addresses, a clear
`dirty`, and refusing faults only under the parameters that allow them (R36, R45, R131, R145, R264). The
canonical form of memory is the model's own (log entry 12). -/
def Obligations.EveryStepKeepsTheInvariant : Prop :=
  ∀ s t : State, s.Inv → step s = .next t → t.Inv

/-- Every run of the four transactions from the state after construction, with any parameters, stays within the
invariant (R130, R147, R371), whose canonical memory is the model's own (log entry 12). -/
def Obligations.EveryRunKeepsTheInvariant : Prop :=
  ∀ (c : Config) (ts : List Transaction) (t : State),
    runTransactions ts (State.construct c) = .next t → t.Inv

/-- The invariant holds after construction with any parameters, so at reset. -/
def Obligations.ConstructionMeetsTheInvariant : Prop :=
  (∀ c : Config, (State.construct c).Inv) ∧ State.reset.Inv

/-- Equal memories are equal data: two canonical memories that read alike everywhere are the same list. The
canonical form is the model's own (R45, R70). -/
def Obligations.CanonicalMemoriesThatReadAlikeAreEqual : Prop :=
  ∀ (c : Config) (m m' : Memory), Memory.wf c m → Memory.wf c m' →
    (∀ a, (Memory.lookup m a).getD (c.initialByte a) = (Memory.lookup m' a).getD (c.initialByte a)) → m = m'

/-- R296: after a completed step the update decrements each timer that is not zero, and the tone sounds exactly
when `sound` was 1. -/
def Obligations.UpdateTicksTheTimers : Prop :=
  ∀ s t : State, s.live → instructionStep s = .next t →
    ∃ u o, update s = .next (u, o) ∧
      u.delay.toNat = t.delay.toNat - 1 ∧ u.sound.toNat = t.sound.toNat - 1 ∧
      (o.tone = true ↔ t.sound.toNat = 1) ∧
      ChangesOnly t u fun c => c = .delay ∨ c = .sound ∨ c = .dirty

/-- R264: `present` is 1 exactly on the updates whose step executed `CLS` or `DRW`, and `dirty` is clear after
every one. -/
def Obligations.PresentExactlyAfterClsOrDrw : Prop :=
  ∀ (s u : State) (o : Outputs), s.Executes → s.dirty = false → update s = .next (u, o) → u.faulted = none →
    (o.present = true ↔
      decodeWord s.wordAtPc = .cls ∨ ∃ x y n, decodeWord s.wordAtPc = .drw x y n) ∧
    u.dirty = false

/-- R378: a delay that an instruction writes is ticked in the same update, and an `LD Vy, DT` in the next step
reads the ticked value and leaves the timer one lower still. -/
def Obligations.WrittenDelayIsReadOneLowerInTheNextStep : Prop :=
  ∀ (s u : State) (x y : Reg), s.Executes → decodeWord s.wordAtPc = .ldDTX x → step s = .next u →
    u.Executes → decodeWord u.wordAtPc = .ldXDT y →
    ∃ r, step u = .next r ∧ (r.reg y).toNat = (s.reg x).toNat - 1 ∧
      r.delay.toNat = (s.reg x).toNat - 2

/-! ### Whole-machine rules: who writes what -/

/-- Only `CALL` pushes and only `RET` pops (R36). -/
def Obligations.OnlyCallAndRetMoveTheStack : Prop :=
  ∀ (i : Instr) (s t : State), exec i s = .next t →
    ((∃ nnn, i = .call nnn) → t.stack = s.pc :: s.stack) ∧
    (i = .ret → ∃ top, s.stack = top :: t.stack) ∧
    (i ≠ .ret → (∀ nnn, i ≠ .call nnn) → t.stack = s.stack)

/-- Only `CLS` and `DRW` write the frame, and only they set `dirty` (R40, R44). -/
def Obligations.OnlyClsAndDrwTouchTheFrame : Prop :=
  ∀ (i : Instr) (s t : State), exec i s = .next t →
    i ≠ .cls → (∀ x y n, i ≠ .drw x y n) →
      (∀ x y, t.pixel x y = s.pixel x y) ∧ t.dirty = s.dirty

/-- No instruction writes the keys, the parameters or `faulted`, and only `RND` draws a byte (R42, R43, R48,
R201). -/
def Obligations.NoInstructionWritesKeysOrParameters : Prop :=
  ∀ (i : Instr) (s t : State), exec i s = .next t →
    (∀ k, t.isPressed k = s.isPressed k) ∧ t.config = s.config ∧ t.faulted = s.faulted ∧
    ((∀ x kk, i ≠ .rnd x kk) → t.draws = s.draws)

/-- `I`, `delay` and `sound` are written by the instructions their rules name and by no other (R35, R37, R38). -/
def Obligations.IndexAndTimersHaveTheirWriters : Prop :=
  ∀ (i : Instr) (s t : State), exec i s = .next t →
    (t.i ≠ s.i → (∃ nnn, i = .ldI nnn) ∨
      ∃ x, i = .addIX x ∨ i = .ldFX x ∨ i = .ldMemX x ∨ i = .ldXMem x) ∧
    (t.delay ≠ s.delay → ∃ x, i = .ldDTX x) ∧
    (t.sound ≠ s.sound → ∃ x, i = .ldSTX x)

/-- A general register is written only as the destination the instruction names, or, `VF` alone, as the flag of
an instruction that defines one (R30, R31). -/
def Obligations.RegistersChangeOnlyAsDestinationOrFlag : Prop :=
  ∀ (i : Instr) (s t : State) (r : Reg), exec i s = .next t →
    i.destination r = false → ¬ (i.writesFlag = true ∧ r = VF) → t.reg r = s.reg r

/-- Only `LD B` and `LD [I]` write memory, and only the bytes of their range (R74, R236). -/
def Obligations.OnlyStoresWriteMemory : Prop :=
  ∀ (i : Instr) (s t : State) (a : Nat), exec i s = .next t → t.readByte a ≠ s.readByte a →
    (∃ x, i = .ldBX x ∧ s.i.toNat ≤ a ∧ a < s.i.toNat + 3) ∨
    (∃ x, i = .ldMemX x ∧ s.i.toNat ≤ a ∧ a < s.i.toNat + (x.val + 1))

/-- R136: the five ways in which a completed instruction writes `PC`. -/
def Obligations.PcIsWrittenInOneOfFiveWays : Prop :=
  ∀ (i : Instr) (s t : State), exec i s = .next t →
    (i.movesPc = false → t.pc = s.pc + 2) ∧
    (i.skips = true → t.pc = s.pc + 4 ∨ t.pc = s.pc + 2) ∧
    (∀ nnn, (i = .jp nnn ∨ i = .call nnn) → t.pc.toNat = nnn.toNat) ∧
    (∀ nnn, i = .jpV0 nnn → t.pc.toNat = nnn.toNat + (s.reg 0).toNat) ∧
    (i = .ret → ∃ top rest, s.stack = top :: rest ∧ t.pc = top + 2) ∧
    (∀ x, i = .ldXK x →
      ((∀ k, s.isPressed k = false) → t.pc = s.pc) ∧ ((∃ k, s.isPressed k = true) → t.pc = s.pc + 2))

/-! ### Memory primitives -/

/-- R73: `MemRead` answers the addressed bytes in order, nothing for `n = 0`, and `MemRange` past the end. -/
def Obligations.MemReadAnswersTheAddressedBytes : Prop :=
  ∀ (s : State) (a n : Nat),
    (n = 0 → s.memRead a n = .ok []) ∧
    (n ≠ 0 → a + n > memSize → s.memRead a n = .error (.memRange a)) ∧
    (a + n ≤ memSize → ∃ bytes, s.memRead a n = .ok bytes ∧ bytes.length = n ∧
      ∀ k, k < n → bytes.getD k 0 = s.readByte (a + k))

/-- R74: `MemWrite` stores its bytes in order and changes only them, does nothing for none, and raises `MemRange`
past the end. It keeps the canonical form, which is the model's own (log entry 12). -/
def Obligations.MemWriteChangesOnlyTheAddressedBytes : Prop :=
  ∀ (s : State) (a : Nat) (bytes : List Byte),
    (bytes = [] → s.memWrite a bytes = .ok s) ∧
    (bytes ≠ [] → a + bytes.length > memSize → s.memWrite a bytes = .error (.memRange a)) ∧
    (a + bytes.length ≤ memSize → ∃ t, s.memWrite a bytes = .ok t ∧
      (∀ k, k < bytes.length → t.readByte (a + k) = bytes.getD k 0) ∧
      (ChangesOnly s t fun c => InBytes a bytes.length c) ∧
      (Memory.wf s.config s.mem → Memory.wf t.config t.mem))

/-! ### Control transfer -/

/-- R160 and R167: `JP nnn` and `JP V0, nnn` set `PC` to the target and change nothing else. -/
def Obligations.JumpsSetPc : Prop :=
  ∀ (nnn : Addr12) (s : State),
    decodeWord (wordNNN 0x1 nnn) = .jp nnn ∧ decodeWord (wordNNN 0xB nnn) = .jpV0 nnn ∧
    (∃ t, exec (.jp nnn) s = .next t ∧ t.pc.toNat = nnn.toNat ∧ ChangesOnly s t fun c => c = .pc) ∧
    (∃ t, exec (.jpV0 nnn) s = .next t ∧ t.pc.toNat = nnn.toNat + (s.reg 0).toNat ∧
      ChangesOnly s t fun c => c = .pc)

/-- R161: `CALL` pushes its own address and jumps, and faults on a full stack; without a bound it never does. -/
def Obligations.CallPushesItsOwnAddress : Prop :=
  ∀ (nnn : Addr12) (s : State),
    decodeWord (wordNNN 0x2 nnn) = .call nnn ∧
    ((∀ d, s.config.stackDepth = some d → s.stack.length < d) →
      ∃ t, exec (.call nnn) s = .next t ∧ t.stack = s.pc :: s.stack ∧ t.pc.toNat = nnn.toNat ∧
        ChangesOnly s t fun c => c = .pc ∨ c = .stack) ∧
    (s.config.stackDepth = some s.stack.length → exec (.call nnn) s = .fault (.stackOverflow s.pc))

/-- R162: `RET` pops the top entry and resumes 2 past it, and faults on an empty stack. -/
def Obligations.RetResumesPastThePoppedAddress : Prop :=
  (∀ x : Reg, decodeWord (wordXKK 0x0 x 0xEE) = .ret) ∧
  (∀ (s : State) (top : Word) (rest : List Word), s.stack = top :: rest →
    ∃ t, exec .ret s = .next t ∧ t.stack = rest ∧ t.pc.toNat = (top.toNat + 2) % 65536 ∧
      ChangesOnly s t fun c => c = .pc ∨ c = .stack) ∧
  (∀ s : State, s.stack = [] → exec .ret s = .fault (.stackUnderflow s.pc))

/-- A `RET` that finds the stack as a `CALL` left it resumes at the instruction after the `CALL` with the stack as
before it (R161, R162). -/
def Obligations.RetUndoesCall : Prop :=
  ∀ (nnn : Addr12) (s t u : State), exec (.call nnn) s = .next t → u.stack = t.stack →
    ∃ r, exec .ret u = .next r ∧ r.pc = s.pc + 2 ∧ r.stack = s.stack

/-- R163 to R166 and R168: a skip tests its condition, advances 4 or 2 and writes only `PC`; the 5- and 9-family
decode at every low nibble, and strict decoding can refuse them exactly where it is not 0. -/
def Obligations.SkipsTestAndWriteOnlyPc : Prop :=
  ∀ (x y : Reg) (kk : Byte) (n : BitVec 4) (s : State),
    decodeWord (wordXKK 0x3 x kk) = .seXKK x kk ∧ decodeWord (wordXKK 0x4 x kk) = .sneXKK x kk ∧
    decodeWord (wordXYN 0x5 x y n) = .seXY x y ∧ decodeWord (wordXYN 0x9 x y n) = .sneXY x y ∧
    (UnsettledByRule (wordXYN 0x5 x y n) ↔ n ≠ 0) ∧ (UnsettledByRule (wordXYN 0x9 x y n) ↔ n ≠ 0) ∧
    (∃ t, exec (.seXKK x kk) s = .next t ∧ (s.reg x = kk → t.pc = s.pc + 4) ∧
      (s.reg x ≠ kk → t.pc = s.pc + 2) ∧ ChangesOnly s t fun c => c = .pc) ∧
    (∃ t, exec (.sneXKK x kk) s = .next t ∧ (s.reg x ≠ kk → t.pc = s.pc + 4) ∧
      (s.reg x = kk → t.pc = s.pc + 2) ∧ ChangesOnly s t fun c => c = .pc) ∧
    (∃ t, exec (.seXY x y) s = .next t ∧ (s.reg x = s.reg y → t.pc = s.pc + 4) ∧
      (s.reg x ≠ s.reg y → t.pc = s.pc + 2) ∧ ChangesOnly s t fun c => c = .pc) ∧
    (∃ t, exec (.sneXY x y) s = .next t ∧ (s.reg x ≠ s.reg y → t.pc = s.pc + 4) ∧
      (s.reg x = s.reg y → t.pc = s.pc + 2) ∧ ChangesOnly s t fun c => c = .pc)

/-- R293 and R294: `SKP` and `SKNP` test the level of the key that the low nibble of `Vx` names and write only
`PC`. -/
def Obligations.KeySkipsTestTheKeyLevel : Prop :=
  ∀ (x : Reg) (s : State) (k : Key), k.val = (s.reg x).toNat % 16 →
    decodeWord (wordXKK 0xE x 0x9E) = .skp x ∧ decodeWord (wordXKK 0xE x 0xA1) = .sknp x ∧
    (∃ t, exec (.skp x) s = .next t ∧ (s.isPressed k = true → t.pc = s.pc + 4) ∧
      (s.isPressed k = false → t.pc = s.pc + 2) ∧ ChangesOnly s t fun c => c = .pc) ∧
    (∃ t, exec (.sknp x) s = .next t ∧ (s.isPressed k = false → t.pc = s.pc + 4) ∧
      (s.isPressed k = true → t.pc = s.pc + 2) ∧ ChangesOnly s t fun c => c = .pc)

/-! ### Loads, arithmetic, logic, shifts, random -/

/-- R190 and R192: `LD Vx, kk` and `LD Vx, Vy`. -/
def Obligations.LoadsWriteOnlyTheirRegister : Prop :=
  ∀ (x y : Reg) (kk : Byte) (s : State),
    decodeWord (wordXKK 0x6 x kk) = .ldXKK x kk ∧ decodeWord (wordXYN 0x8 x y 0x0) = .ldXY x y ∧
    (∃ t, exec (.ldXKK x kk) s = .next t ∧ t.reg x = kk ∧ t.pc = s.pc + 2 ∧
      ChangesOnly s t fun c => c = .pc ∨ c = .reg x) ∧
    (∃ t, exec (.ldXY x y) s = .next t ∧ t.reg x = s.reg y ∧ t.pc = s.pc + 2 ∧
      ChangesOnly s t fun c => c = .pc ∨ c = .reg x)

/-- R191: `ADD Vx, kk` wraps modulo 256 and writes no flag (`VF` only as the destination). -/
def Obligations.AddImmediateWrapsWithoutFlag : Prop :=
  ∀ (x : Reg) (kk : Byte) (s : State),
    decodeWord (wordXKK 0x7 x kk) = .addXKK x kk ∧
    ∃ t, exec (.addXKK x kk) s = .next t ∧
      (t.reg x).toNat = ((s.reg x).toNat + kk.toNat) % 256 ∧ t.pc = s.pc + 2 ∧
      ChangesOnly s t fun c => c = .pc ∨ c = .reg x

/-- R193 to R195: `OR`, `AND` and `XOR` bit by bit, with no flag. -/
def Obligations.LogicWorksBitByBit : Prop :=
  ∀ (x y : Reg) (s : State),
    decodeWord (wordXYN 0x8 x y 0x1) = .orXY x y ∧ decodeWord (wordXYN 0x8 x y 0x2) = .andXY x y ∧
    decodeWord (wordXYN 0x8 x y 0x3) = .xorXY x y ∧
    (∃ t, exec (.orXY x y) s = .next t ∧
      (∀ k, (t.reg x).getLsbD k = ((s.reg x).getLsbD k || (s.reg y).getLsbD k)) ∧ t.pc = s.pc + 2 ∧
      ChangesOnly s t fun c => c = .pc ∨ c = .reg x) ∧
    (∃ t, exec (.andXY x y) s = .next t ∧
      (∀ k, (t.reg x).getLsbD k = ((s.reg x).getLsbD k && (s.reg y).getLsbD k)) ∧ t.pc = s.pc + 2 ∧
      ChangesOnly s t fun c => c = .pc ∨ c = .reg x) ∧
    (∃ t, exec (.xorXY x y) s = .next t ∧
      (∀ k, (t.reg x).getLsbD k = ((s.reg x).getLsbD k ^^ (s.reg y).getLsbD k)) ∧ t.pc = s.pc + 2 ∧
      ChangesOnly s t fun c => c = .pc ∨ c = .reg x)

/-- R196: `ADD Vx, Vy` with its carry, in every aliasing of `VF` with an operand; the fault policy refuses the
aliased words. -/
def Obligations.AddWritesSumAndCarry : Prop :=
  ∀ (x y : Reg) (s : State) (a b cy : Nat),
    a = (s.reg x).toNat → b = (s.reg y).toNat → cy = (if a + b > 255 then 1 else 0) →
    decodeWord (wordXYN 0x8 x y 0x4) = .addXY x y ∧
    (s.admitsOperands [x, y] → ∃ t, exec (.addXY x y) s = .next t ∧
      (x ≠ VF → (t.reg VF).toNat = cy) ∧
      (x ≠ VF → y ≠ VF → (t.reg x).toNat = (a + b) % 256) ∧
      (x = VF → y ≠ VF → (t.reg x).toNat = (cy + b) % 256) ∧
      (x ≠ VF → y = VF → (t.reg x).toNat = (a + cy) % 256) ∧
      (x = VF → y = VF → (t.reg x).toNat = 2 * cy) ∧
      t.pc = s.pc + 2 ∧ ChangesOnly s t fun c => c = .pc ∨ c = .reg x ∨ c = .reg VF) ∧
    (¬ s.admitsOperands [x, y] → exec (.addXY x y) s = .fault (.aliasUnsettled (wordXYN 0x8 x y 0x4)))

/-- R197 and R199: `SUB` and `SUBN` with "no borrow", in every aliasing of `VF` with an operand; the fault policy
refuses the aliased words. -/
def Obligations.SubtractionsWriteDifferenceAndNoBorrow : Prop :=
  ∀ (x y : Reg) (s : State) (a b f g : Nat),
    a = (s.reg x).toNat → b = (s.reg y).toNat →
    f = (if b > a then 0 else 1) → g = (if a > b then 0 else 1) →
    decodeWord (wordXYN 0x8 x y 0x5) = .subXY x y ∧ decodeWord (wordXYN 0x8 x y 0x7) = .subnXY x y ∧
    (s.admitsOperands [x, y] → ∃ t, exec (.subXY x y) s = .next t ∧
      (x ≠ VF → (t.reg VF).toNat = f) ∧
      (x ≠ VF → y ≠ VF → (t.reg x).toNat = (a + 256 - b) % 256) ∧
      (x = VF → y ≠ VF → (t.reg x).toNat = (f + 256 - b) % 256) ∧
      (x ≠ VF → y = VF → (t.reg x).toNat = (a + 256 - f) % 256) ∧
      (x = VF → y = VF → (t.reg x).toNat = 0) ∧
      t.pc = s.pc + 2 ∧ ChangesOnly s t fun c => c = .pc ∨ c = .reg x ∨ c = .reg VF) ∧
    (s.admitsOperands [x, y] → ∃ t, exec (.subnXY x y) s = .next t ∧
      (x ≠ VF → (t.reg VF).toNat = g) ∧
      (x ≠ VF → y ≠ VF → (t.reg x).toNat = (b + 256 - a) % 256) ∧
      (x = VF → y ≠ VF → (t.reg x).toNat = (b + 256 - g) % 256) ∧
      (x ≠ VF → y = VF → (t.reg x).toNat = (g + 256 - a) % 256) ∧
      (x = VF → y = VF → (t.reg x).toNat = 0) ∧
      t.pc = s.pc + 2 ∧ ChangesOnly s t fun c => c = .pc ∨ c = .reg x ∨ c = .reg VF) ∧
    (¬ s.admitsOperands [x, y] →
      exec (.subXY x y) s = .fault (.aliasUnsettled (wordXYN 0x8 x y 0x5)) ∧
      exec (.subnXY x y) s = .fault (.aliasUnsettled (wordXYN 0x8 x y 0x7)))

/-- R198 and R200: `SHR` and `SHL` shift `Vx` in place and put the bit shifted out into `VF`; with `x = 15` the
result stands in `VF`; `y` is not read; the fault policy refuses `x = 15`. -/
def Obligations.ShiftsPutTheLostBitIntoVF : Prop :=
  ∀ (x y : Reg) (s : State) (a : Nat), a = (s.reg x).toNat →
    decodeWord (wordXYN 0x8 x y 0x6) = .shr x y ∧ decodeWord (wordXYN 0x8 x y 0xE) = .shl x y ∧
    (s.admitsOperands [x] → ∃ t, exec (.shr x y) s = .next t ∧
      (x ≠ VF → (t.reg x).toNat = a / 2 ∧ (t.reg VF).toNat = a % 2) ∧
      (x = VF → (t.reg VF).toNat = 0) ∧
      t.pc = s.pc + 2 ∧ ChangesOnly s t fun c => c = .pc ∨ c = .reg x ∨ c = .reg VF) ∧
    (s.admitsOperands [x] → ∃ t, exec (.shl x y) s = .next t ∧
      (x ≠ VF → (t.reg x).toNat = 2 * a % 256 ∧ (t.reg VF).toNat = a / 128) ∧
      (x = VF → (t.reg VF).toNat = 2 * (a / 128)) ∧
      t.pc = s.pc + 2 ∧ ChangesOnly s t fun c => c = .pc ∨ c = .reg x ∨ c = .reg VF) ∧
    (¬ s.admitsOperands [x] →
      exec (.shr x y) s = .fault (.aliasUnsettled (wordXYN 0x8 x y 0x6)) ∧
      exec (.shl x y) s = .fault (.aliasUnsettled (wordXYN 0x8 x y 0xE)))

/-- The policy `fault` refuses exactly the VF-alias words, each before its own check, and no other policy or word
raises `AliasUnsettled` (R203, R333). -/
def Obligations.AliasPolicyRefusesExactlyTheAliasWords : Prop :=
  ∀ (i : Instr) (s : State),
    (s.config.vfAliasPolicy = .fault → i.namesFlag = true → exec i s = .fault (.aliasUnsettled (encode i))) ∧
    (∀ w, exec i s = .fault (.aliasUnsettled w) → s.config.vfAliasPolicy = .fault ∧ i.namesFlag = true)

/-- R201: `RND` writes the drawn byte, whatever it is, under the mask, and takes a fresh draw. The draw is the
model's free value (log entry 2). -/
def Obligations.RandomByteIsMasked : Prop :=
  ∀ (x : Reg) (kk : Byte) (s : State),
    decodeWord (wordXKK 0xC x kk) = .rnd x kk ∧
    ∃ t, exec (.rnd x kk) s = .next t ∧
      (∀ k, (t.reg x).getLsbD k = ((Config.randomDraw s.draws).getLsbD k && kk.getLsbD k)) ∧
      (kk = 0 → t.reg x = 0) ∧ t.draws = s.draws + 1 ∧ t.pc = s.pc + 2 ∧
      ChangesOnly s t fun c => c = .pc ∨ c = .reg x ∨ c = .draws

/-! ### Index and memory -/

/-- R230 and R232: `LD I, nnn` and `LD F, Vx`, which does not mask `Vx`. -/
def Obligations.IndexLoadsWriteOnlyI : Prop :=
  ∀ (nnn : Addr12) (x : Reg) (s : State),
    decodeWord (wordNNN 0xA nnn) = .ldI nnn ∧ decodeWord (wordXKK 0xF x 0x29) = .ldFX x ∧
    (∃ t, exec (.ldI nnn) s = .next t ∧ t.i.toNat = nnn.toNat ∧ t.pc = s.pc + 2 ∧
      ChangesOnly s t fun c => c = .pc ∨ c = .index) ∧
    (∃ t, exec (.ldFX x) s = .next t ∧ t.i.toNat = 5 * (s.reg x).toNat ∧ t.pc = s.pc + 2 ∧
      ChangesOnly s t fun c => c = .pc ∨ c = .index)

/-- R231: `ADD I, Vx` wraps at 16 bits and flags a sum past 0xFFF, with the old `Vx` even for `x = 15`. -/
def Obligations.AddIndexFlagsItsRange : Prop :=
  ∀ (x : Reg) (s : State) (sum : Nat), sum = s.i.toNat + (s.reg x).toNat →
    decodeWord (wordXKK 0xF x 0x1E) = .addIX x ∧
    (s.admitsOperands [x] → ∃ t, exec (.addIX x) s = .next t ∧
      t.i.toNat = sum % 65536 ∧ (t.reg VF).toNat = (if sum > 0xFFF then 1 else 0) ∧ t.pc = s.pc + 2 ∧
      ChangesOnly s t fun c => c = .pc ∨ c = .index ∨ c = .reg VF) ∧
    (¬ s.admitsOperands [x] → exec (.addIX x) s = .fault (.aliasUnsettled (wordXKK 0xF x 0x1E)))

/-- R233: `LD B, Vx` stores the three decimal digits at `I`, hundreds first, or faults and stores none. -/
def Obligations.DecimalDigitsAreStoredAtI : Prop :=
  ∀ (x : Reg) (s : State) (v : Nat), v = (s.reg x).toNat →
    decodeWord (wordXKK 0xF x 0x33) = .ldBX x ∧
    (s.i.toNat + 3 ≤ memSize → ∃ t, exec (.ldBX x) s = .next t ∧
      (t.readByte s.i.toNat).toNat = v / 100 ∧ (t.readByte (s.i.toNat + 1)).toNat = v / 10 % 10 ∧
      (t.readByte (s.i.toNat + 2)).toNat = v % 10 ∧ t.pc = s.pc + 2 ∧
      ChangesOnly s t fun c => c = .pc ∨ InBytes s.i.toNat 3 c) ∧
    (s.i.toNat + 3 > memSize → exec (.ldBX x) s = .fault (.memRange s.i.toNat))

/-- R234: `LD [I], Vx` stores `V0 .. Vx` at `I` and moves `I` past them, or faults and does neither. -/
def Obligations.RegisterDumpStoresTheBlock : Prop :=
  ∀ (x : Reg) (s : State),
    decodeWord (wordXKK 0xF x 0x55) = .ldMemX x ∧
    (s.i.toNat + x.val + 1 ≤ memSize → ∃ t, exec (.ldMemX x) s = .next t ∧
      (∀ q : Reg, q.val ≤ x.val → t.readByte (s.i.toNat + q.val) = s.reg q) ∧
      t.i.toNat = (s.i.toNat + x.val + 1) % 65536 ∧ t.pc = s.pc + 2 ∧
      ChangesOnly s t fun c => c = .pc ∨ c = .index ∨ InBytes s.i.toNat (x.val + 1) c) ∧
    (s.i.toNat + x.val + 1 > memSize → exec (.ldMemX x) s = .fault (.memRange s.i.toNat))

/-- R235: `LD Vx, [I]` loads `V0 .. Vx` from `I`, leaves the registers above `Vx`, and moves `I` past the block,
or faults and does neither. -/
def Obligations.RegisterLoadReadsTheBlock : Prop :=
  ∀ (x : Reg) (s : State),
    decodeWord (wordXKK 0xF x 0x65) = .ldXMem x ∧
    (s.i.toNat + x.val + 1 ≤ memSize → ∃ t, exec (.ldXMem x) s = .next t ∧
      (∀ q : Reg, q.val ≤ x.val → t.reg q = s.readByte (s.i.toNat + q.val)) ∧
      t.i.toNat = (s.i.toNat + x.val + 1) % 65536 ∧ t.pc = s.pc + 2 ∧
      ChangesOnly s t fun c => c = .pc ∨ c = .index ∨ ∃ q : Reg, q.val ≤ x.val ∧ c = .reg q) ∧
    (s.i.toNat + x.val + 1 > memSize → exec (.ldXMem x) s = .fault (.memRange s.i.toNat))

/-- A register dump followed by a register load at the same `I` and `x` reproduces the registers, whatever stands
in the registers between the two, and both leave `I` advanced by `x + 1` (R234, R235,
spec/95_test_vectors.md L1.6). -/
def Obligations.LoadAfterDumpRestoresTheRegisters : Prop :=
  ∀ (x : Reg) (s t u : State), exec (.ldMemX x) s = .next t →
    (∀ a, u.readByte a = t.readByte a) → u.i = s.i →
    ∃ r, exec (.ldXMem x) u = .next r ∧ (∀ q : Reg, q.val ≤ x.val → r.reg q = s.reg q) ∧ r.i = t.i

/-- Self-modifying code: a word that an `LD [I], Vx` stores where `PC` goes next is the word the next step
fetches (R82, R377). -/
def Obligations.StoredWordIsFetchedNext : Prop :=
  ∀ (s : State) (x p q : Reg), s.Executes → decodeWord s.wordAtPc = .ldMemX x →
    s.i.toNat + x.val + 1 ≤ memSize → q.val = p.val + 1 → q.val ≤ x.val →
    s.i.toNat + p.val = s.pc.toNat + 2 →
    ∃ u, step s = .next u ∧ u.fetch = .ok (s.reg p ++ s.reg q)

/-! ### Display -/

/-- R260: `CLS` turns every pixel Black and sets `dirty`. -/
def Obligations.ClsBlackensTheFrame : Prop :=
  (∀ x : Reg, decodeWord (wordXKK 0x0 x 0xE0) = .cls) ∧
  ∀ s : State, ∃ t, exec .cls s = .next t ∧ (∀ x y, t.pixel x y = false) ∧ t.dirty = true ∧
    t.pc = s.pc + 2 ∧ ChangesOnly s t fun c => c = .pc ∨ c = .dirty ∨ ∃ x y, c = .pixel x y

/-- R261 to R263: `DRW` flips exactly the in-bounds pixels under lit sprite bits, `VF` is 1 exactly if one of them
was White, the place and the rows are those before the draw, and a range past 0xFFF faults with nothing
changed. -/
def Obligations.DrawFlipsLitPixelsAndFlagsCollision : Prop :=
  ∀ (x y : Reg) (n : Height) (s : State) (lit : Nat → Nat → Bool),
    lit = spriteLit (s.spriteRows n) (s.reg x).toNat (s.reg y).toNat →
    decodeWord (wordXYN 0xD x y (BitVec.ofFin (w := 4) n)) = .drw x y n ∧
    (s.admitsOperands [x, y] → (n.val = 0 ∨ s.i.toNat + n.val ≤ memSize) →
      ∃ t, exec (.drw x y n) s = .next t ∧
        (∀ (X : Col) (Y : Row), t.pixel X Y = (s.pixel X Y ^^ lit X.val Y.val)) ∧
        ((∃ (X : Col) (Y : Row), lit X.val Y.val = true ∧ s.pixel X Y = true) → t.reg VF = 1) ∧
        ((¬ ∃ (X : Col) (Y : Row), lit X.val Y.val = true ∧ s.pixel X Y = true) → t.reg VF = 0) ∧
        t.dirty = true ∧ t.pc = s.pc + 2 ∧
        ChangesOnly s t fun c => c = .pc ∨ c = .dirty ∨ c = .reg VF ∨ ∃ X Y, c = .pixel X Y) ∧
    (s.admitsOperands [x, y] → n.val ≠ 0 → s.i.toNat + n.val > memSize →
      exec (.drw x y n) s = .fault (.memRange s.i.toNat)) ∧
    (¬ s.admitsOperands [x, y] →
      exec (.drw x y n) s = .fault (.aliasUnsettled (wordXYN 0xD x y (BitVec.ofFin (w := 4) n))))

/-- R266: drawing the same sprite twice at the same place restores every pixel; the second draw collides exactly
if the first turned some pixel from Black to White, so on a frame that was Black under the sprite exactly if the
sprite has a lit in-bounds bit. -/
def Obligations.DrawingTwiceRestoresTheFrame : Prop :=
  ∀ (x y : Reg) (n : Height) (s t t' : State), x ≠ VF → y ≠ VF →
    exec (.drw x y n) s = .next t →
    (∀ X Y, t'.pixel X Y = t.pixel X Y) → (∀ a, t'.readByte a = t.readByte a) → t'.i = t.i →
    t'.reg x = t.reg x → t'.reg y = t.reg y →
    ∃ u, exec (.drw x y n) t' = .next u ∧
      (∀ X Y, u.pixel X Y = s.pixel X Y) ∧
      (u.reg VF = 1 ↔ ∃ X Y, s.pixel X Y = false ∧ t.pixel X Y = true) ∧
      ((∀ (X : Col) (Y : Row),
          spriteLit (s.spriteRows n) (s.reg x).toNat (s.reg y).toNat X.val Y.val = true →
            s.pixel X Y = false) →
        (u.reg VF = 1 ↔ ∃ (X : Col) (Y : Row),
          spriteLit (s.spriteRows n) (s.reg x).toNat (s.reg y).toNat X.val Y.val = true))

/-! ### Timers and keys -/

/-- R290 to R292: the timer moves, in the step itself; after the whole update a timer that was set stands one
lower, and a sound of 1 has sounded. -/
def Obligations.TimerMovesCopyTheByte : Prop :=
  ∀ (x : Reg) (s : State),
    decodeWord (wordXKK 0xF x 0x07) = .ldXDT x ∧ decodeWord (wordXKK 0xF x 0x15) = .ldDTX x ∧
    decodeWord (wordXKK 0xF x 0x18) = .ldSTX x ∧
    (∃ t, exec (.ldXDT x) s = .next t ∧ t.reg x = s.delay ∧ t.pc = s.pc + 2 ∧
      ChangesOnly s t fun c => c = .pc ∨ c = .reg x) ∧
    (∃ t, exec (.ldDTX x) s = .next t ∧ t.delay = s.reg x ∧ t.pc = s.pc + 2 ∧
      ChangesOnly s t fun c => c = .pc ∨ c = .delay) ∧
    (∃ t, exec (.ldSTX x) s = .next t ∧ t.sound = s.reg x ∧ t.pc = s.pc + 2 ∧
      ChangesOnly s t fun c => c = .pc ∨ c = .sound) ∧
    (s.Executes → decodeWord s.wordAtPc = .ldDTX x →
      ∃ u o, update s = .next (u, o) ∧ u.delay.toNat = (s.reg x).toNat - 1) ∧
    (s.Executes → decodeWord s.wordAtPc = .ldSTX x →
      ∃ u o, update s = .next (u, o) ∧ u.sound.toNat = (s.reg x).toNat - 1 ∧
        (o.tone = true ↔ (s.reg x).toNat = 1))

/-- R295 and R299: `LD Vx, K` takes the lowest key that is down, or parks with `PC` unchanged. -/
def Obligations.KeyWaitTakesTheLowestKeyOrParks : Prop :=
  ∀ (x : Reg) (s : State),
    decodeWord (wordXKK 0xF x 0x0A) = .ldXK x ∧
    ((∀ k, s.isPressed k = false) → s.lowestPressed = none ∧
      ∃ t, exec (.ldXK x) s = .next t ∧ t.mode = .waitingForKey ∧ t.pc = s.pc ∧
        ChangesOnly s t fun c => c = .mode) ∧
    (∀ k, s.isPressed k = true → (∀ j, j < k → s.isPressed j = false) → s.lowestPressed = some k ∧
      ∃ t, exec (.ldXK x) s = .next t ∧ (t.reg x).toNat = k.val ∧ t.mode = .running ∧ t.pc = s.pc + 2 ∧
        ChangesOnly s t fun c => c = .pc ∨ c = .mode ∨ c = .reg x)

/-! ### The host's transactions -/

/-- R298: a key event sets the key its id maps to and nothing else; an unmapped id is a no-op; no step changes a
key. -/
def Obligations.KeyEventSetsItsKeyAlone : Prop :=
  ∀ (s : State) (e : Nat) (pressed : Bool),
    (lookupKey s.config.keymap e = none → transact (.keyEvent e pressed) s = .next s) ∧
    (∀ k, lookupKey s.config.keymap e = some k →
      ∃ t, transact (.keyEvent e pressed) s = .next t ∧ t.isPressed k = pressed ∧
        ChangesOnly s t fun c => c = .key k) ∧
    (∀ t k, step s = .next t → t.isPressed k = s.isPressed k)

/-- R373 and R375: a load writes at most 3584 bytes at 0x200 and `PC`, and nothing else; a failed load changes
nothing. -/
def Obligations.LoadWritesTheProgramAndPc : Prop :=
  ∀ (s : State) (bytes : List Byte),
    (∃ t, transact (.load (.program bytes)) s = .next t ∧ t.pc = 0x200 ∧
      (∀ k, k < bytes.length → k < 3584 → t.readByte (0x200 + k) = bytes.getD k 0) ∧
      ChangesOnly s t fun c => c = .pc ∨ InBytes 0x200 (min bytes.length 3584) c) ∧
    transact (.load .loadFailed) s = .next s

/-- R370 to R372: every field after construction and after `reset`, with the parameters kept. -/
def Obligations.ResetRestoresEveryField : Prop :=
  ∀ s : State, (∃ t, transact .reset s = .next t) ∧
    ∀ t, (transact .reset s = .next t ∨ t = State.construct s.config) →
      (∀ r, t.reg r = 0) ∧ t.pc = 0x200 ∧ t.i = 0 ∧ t.stack = [] ∧ t.delay = 0 ∧ t.sound = 0 ∧
      t.mode = .running ∧ t.dirty = false ∧ (∀ k, t.isPressed k = false) ∧ (∀ x y, t.pixel x y = false) ∧
      (∀ a (h : a < 80), t.readByte a = s.config.font[a]) ∧
      (∀ a, 80 ≤ a → t.readByte a = (Memory.lookup s.config.memInit a).getD 0) ∧
      t.faulted = none ∧ t.config = s.config

/-! ### Runs -/

/-- R147: a run of transactions has no end of its own. At every index of every infinite input, from every state,
there is a state `t` before the transaction and a report of it: the state `u` after it, which is the state before
the next one, and outputs exactly where it is an `update`, those of that update. The first `n` transactions as a
finite run lead to the same `t` and report the same `n` times. That a fault does not end a run is log entry 5. -/
def Obligations.EveryRunGoesOnAndReportsEachTransaction : Prop :=
  ∀ (inputs : Nat → Transaction) (s : State) (n : Nat),
    ∃ (t u : State) (o : Option Outputs) (rs : List Report),
      runState inputs s n = .next t ∧
      transact (inputs n) t = .next u ∧
      runState inputs s (n + 1) = .next u ∧
      runReport inputs s n = .next { state := u, outputs := o } ∧
      (inputs n = .update → ∃ p, o = some p ∧ update t = .next (u, p)) ∧
      (inputs n ≠ .update → o = none) ∧
      runTransactions ((List.range n).map inputs) s = .next t ∧
      reports ((List.range n).map inputs) s = .next rs ∧ rs.length = n ∧
      ∀ k r, rs[k]? = some r → runReport inputs s k = .next r
end

