-- ==== Sys2Proof/Laws/Encoding.lean ====
section
/-! SUPPORT. The bits and the fields of the words the encoder builds (R101, R102). -/

namespace Sys2Proof

/-! ### The bits of each format -/

theorem getLsbD_wordNNN (op : BitVec 4) (nnn : Addr12) (k : Nat) :
    (wordNNN op nnn).getLsbD k = if k < 12 then nnn.getLsbD k else op.getLsbD (k - 12) :=
  BitVec.getLsbD_append

theorem getLsbD_wordXKK (op : BitVec 4) (x : Reg) (kk : Byte) (k : Nat) :
    (wordXKK op x kk).getLsbD k =
      if k < 8 then kk.getLsbD k
      else if k - 8 < 4 then (BitVec.ofFin (w := 4) x).getLsbD (k - 8) else op.getLsbD (k - 8 - 4) := by
  have h : (wordXKK op x kk).getLsbD k =
      if k < 8 then kk.getLsbD k else (op ++ BitVec.ofFin (w := 4) x).getLsbD (k - 8) :=
    BitVec.getLsbD_append
  rw [h, BitVec.getLsbD_append]

theorem getLsbD_wordXYN (op : BitVec 4) (x y : Reg) (n : BitVec 4) (k : Nat) :
    (wordXYN op x y n).getLsbD k =
      if k < 4 then n.getLsbD k
      else if k - 4 < 4 then (BitVec.ofFin (w := 4) y).getLsbD (k - 4)
      else if k - 4 - 4 < 4 then (BitVec.ofFin (w := 4) x).getLsbD (k - 4 - 4)
      else op.getLsbD (k - 4 - 4 - 4) := by
  have h : (wordXYN op x y n).getLsbD k =
      if k < 4 then n.getLsbD k
      else (op ++ BitVec.ofFin (w := 4) x ++ BitVec.ofFin (w := 4) y).getLsbD (k - 4) :=
    BitVec.getLsbD_append
  rw [h, BitVec.getLsbD_append, BitVec.getLsbD_append]

/-- A field of a word, by its bits. -/
theorem extract_eq {w : Word} {lo len : Nat} {f : BitVec len}
    (h : ∀ k, k < len → w.getLsbD (lo + k) = f.getLsbD k) : w.extractLsb' lo len = f := by
  apply BitVec.eq_of_getLsbD_eq
  intro k hk
  rw [BitVec.getLsbD_extractLsb', h k hk]
  simp [hk]

/-! ### Format `nnn` -/

@[simp] theorem fieldOp_wordNNN (op : BitVec 4) (nnn : Addr12) : fieldOp (wordNNN op nnn) = op :=
  extract_eq fun k hk => by simp [getLsbD_wordNNN]

@[simp] theorem fieldNNN_wordNNN (op : BitVec 4) (nnn : Addr12) : fieldNNN (wordNNN op nnn) = nnn :=
  extract_eq fun k hk => by simp [getLsbD_wordNNN, hk]

/-! ### Formats `xkk` and `x` -/

@[simp] theorem fieldOp_wordXKK (op : BitVec 4) (x : Reg) (kk : Byte) : fieldOp (wordXKK op x kk) = op :=
  extract_eq fun k hk => by
    rw [getLsbD_wordXKK, if_neg (by omega), if_neg (by omega)]
    congr 1; omega

@[simp] theorem fieldX_wordXKK (op : BitVec 4) (x : Reg) (kk : Byte) : fieldX (wordXKK op x kk) = x := by
  have h : (wordXKK op x kk).extractLsb' 8 4 = BitVec.ofFin (w := 4) x :=
    extract_eq fun k hk => by
      rw [getLsbD_wordXKK, if_neg (by omega), if_pos (by omega), Nat.add_sub_cancel_left]
  exact congrArg BitVec.toFin h

@[simp] theorem fieldKK_wordXKK (op : BitVec 4) (x : Reg) (kk : Byte) : fieldKK (wordXKK op x kk) = kk :=
  extract_eq fun k hk => by rw [getLsbD_wordXKK, if_pos (by omega), Nat.zero_add]

/-! ### Formats `xy` and `xyn` -/

@[simp] theorem fieldOp_wordXYN (op : BitVec 4) (x y : Reg) (n : BitVec 4) :
    fieldOp (wordXYN op x y n) = op :=
  extract_eq fun k hk => by
    rw [getLsbD_wordXYN, if_neg (by omega), if_neg (by omega), if_neg (by omega)]
    congr 1; omega

@[simp] theorem fieldX_wordXYN (op : BitVec 4) (x y : Reg) (n : BitVec 4) :
    fieldX (wordXYN op x y n) = x := by
  have h : (wordXYN op x y n).extractLsb' 8 4 = BitVec.ofFin (w := 4) x :=
    extract_eq fun k hk => by
      rw [getLsbD_wordXYN, if_neg (by omega), if_neg (by omega), if_pos (by omega)]
      congr 1; omega
  exact congrArg BitVec.toFin h

@[simp] theorem fieldY_wordXYN (op : BitVec 4) (x y : Reg) (n : BitVec 4) :
    fieldY (wordXYN op x y n) = y := by
  have h : (wordXYN op x y n).extractLsb' 4 4 = BitVec.ofFin (w := 4) y :=
    extract_eq fun k hk => by
      rw [getLsbD_wordXYN, if_neg (by omega), if_pos (by omega), Nat.add_sub_cancel_left]
  exact congrArg BitVec.toFin h

@[simp] theorem fieldN_wordXYN (op : BitVec 4) (x y : Reg) (n : BitVec 4) :
    fieldN (wordXYN op x y n) = n :=
  extract_eq fun k hk => by rw [getLsbD_wordXYN, if_pos (by omega), Nat.zero_add]

/-! ### The bits the masks of R110 keep -/

theorem bits_maskTop (k : Nat) (h : k < 16) : (0xF000 : Word).getLsbD k = decide (12 ≤ k) := by
  revert k; decide

theorem bits_maskTopLow (k : Nat) (h : k < 16) : (0xF0FF : Word).getLsbD k = decide (k < 8 ∨ 12 ≤ k) := by
  revert k; decide

theorem bits_maskTopNibble (k : Nat) (h : k < 16) : (0xF00F : Word).getLsbD k = decide (k < 4 ∨ 12 ≤ k) := by
  revert k; decide

theorem wordNNN_maskTop (op : BitVec 4) (nnn : Addr12) : wordNNN op nnn &&& 0xF000 = wordNNN op 0 := by
  apply BitVec.eq_of_getLsbD_eq
  intro k hk
  rw [BitVec.getLsbD_and, bits_maskTop k hk, getLsbD_wordNNN, getLsbD_wordNNN]
  by_cases h : k < 12
  · simp [h]
  · simp [h, Nat.not_lt.mp h]

theorem wordXKK_maskTop (op : BitVec 4) (x : Reg) (kk : Byte) :
    wordXKK op x kk &&& 0xF000 = wordXKK op 0 0 := by
  apply BitVec.eq_of_getLsbD_eq
  intro k hk
  rw [BitVec.getLsbD_and, bits_maskTop k hk, getLsbD_wordXKK, getLsbD_wordXKK]
  by_cases h : k < 8
  · simp [h]; omega
  · by_cases h' : k - 8 < 4
    · simp [h, h']; omega
    · rw [decide_eq_true (by omega), Bool.and_true, if_neg h, if_neg h', if_neg h, if_neg h']

theorem wordXKK_maskTopLow (op : BitVec 4) (x : Reg) (kk : Byte) :
    wordXKK op x kk &&& 0xF0FF = wordXKK op 0 kk := by
  apply BitVec.eq_of_getLsbD_eq
  intro k hk
  rw [BitVec.getLsbD_and, bits_maskTopLow k hk, getLsbD_wordXKK, getLsbD_wordXKK]
  by_cases h : k < 8
  · simp [h]
  · by_cases h' : k - 8 < 4
    · simp [h, h']; omega
    · rw [decide_eq_true (by omega), Bool.and_true, if_neg h, if_neg h', if_neg h, if_neg h']

theorem wordXYN_maskTop (op : BitVec 4) (x y : Reg) (n : BitVec 4) :
    wordXYN op x y n &&& 0xF000 = wordXYN op 0 0 0 := by
  apply BitVec.eq_of_getLsbD_eq
  intro k hk
  rw [BitVec.getLsbD_and, bits_maskTop k hk, getLsbD_wordXYN, getLsbD_wordXYN]
  by_cases h : 12 ≤ k
  · rw [decide_eq_true h, Bool.and_true]
    repeat rw [if_neg (by omega)]
  · rw [decide_eq_false h, Bool.and_false]
    split
    · simp
    · split
      · simp
      · rw [if_pos (by omega)]; simp

theorem wordXYN_maskTopNibble (op : BitVec 4) (x y : Reg) (n : BitVec 4) :
    wordXYN op x y n &&& 0xF00F = wordXYN op 0 0 n := by
  apply BitVec.eq_of_getLsbD_eq
  intro k hk
  rw [BitVec.getLsbD_and, bits_maskTopNibble k hk, getLsbD_wordXYN, getLsbD_wordXYN]
  by_cases h : k < 4
  · simp [h]
  · rw [if_neg h, if_neg h]
    by_cases h12 : 12 ≤ k
    · rw [decide_eq_true (.inr h12), Bool.and_true]
      repeat rw [if_neg (by omega)]
    · rw [decide_eq_false (by omega), Bool.and_false]
      split
      · simp
      · rw [if_pos (by omega)]; simp

/-! ### The fields decide whether a word is in a row (R110) -/

theorem getLsbD_fieldOp (w : Word) (k : Nat) (h : k < 4) : (fieldOp w).getLsbD k = w.getLsbD (12 + k) := by
  simp [fieldOp, h]

theorem getLsbD_fieldKK (w : Word) (k : Nat) (h : k < 8) : (fieldKK w).getLsbD k = w.getLsbD k := by
  simp [fieldKK, h]

theorem getLsbD_fieldN (w : Word) (k : Nat) (h : k < 4) : (fieldN w).getLsbD k = w.getLsbD k := by
  simp [fieldN, h]

theorem getLsbD_fieldX (w : Word) (k : Nat) (h : k < 4) :
    (BitVec.ofFin (w := 4) (fieldX w)).getLsbD k = w.getLsbD (8 + k) := by
  show (w.extractLsb' 8 4).getLsbD k = _
  simp [h]

theorem getLsbD_fieldY (w : Word) (k : Nat) (h : k < 4) :
    (BitVec.ofFin (w := 4) (fieldY w)).getLsbD k = w.getLsbD (4 + k) := by
  show (w.extractLsb' 4 4).getLsbD k = _
  simp [h]

/-- A word is its four nibbles. -/
theorem word_of_fields (w : Word) : wordXYN (fieldOp w) (fieldX w) (fieldY w) (fieldN w) = w := by
  apply BitVec.eq_of_getLsbD_eq
  intro k hk
  rw [getLsbD_wordXYN]
  split
  · exact getLsbD_fieldN w k ‹_›
  · split
    · rw [getLsbD_fieldY w _ ‹_›]; congr 1; omega
    · split
      · rw [getLsbD_fieldX w _ ‹_›]; congr 1; omega
      · rw [getLsbD_fieldOp w _ (by omega)]; congr 1; omega

/-- A word is its top nibble, `x` and its low byte. -/
theorem word_of_fieldKK (w : Word) : wordXKK (fieldOp w) (fieldX w) (fieldKK w) = w := by
  apply BitVec.eq_of_getLsbD_eq
  intro k hk
  rw [getLsbD_wordXKK]
  split
  · exact getLsbD_fieldKK w k ‹_›
  · split
    · rw [getLsbD_fieldX w _ ‹_›]; congr 1; omega
    · rw [getLsbD_fieldOp w _ (by omega)]; congr 1; omega

/-- A word is its top nibble and its low 12 bits. -/
theorem word_of_fieldNNN (w : Word) : wordNNN (fieldOp w) (fieldNNN w) = w := by
  apply BitVec.eq_of_getLsbD_eq
  intro k hk
  rw [getLsbD_wordNNN]
  split
  · simp [fieldNNN, *]
  · rw [getLsbD_fieldOp w _ (by omega)]; congr 1; omega

/-- Masking with 0xF000 keeps the top nibble. -/
theorem and_maskTop_eq_iff (w : Word) (op : BitVec 4) :
    w &&& 0xF000 = wordNNN op 0 ↔ fieldOp w = op := by
  rw [← word_of_fieldNNN w, wordNNN_maskTop]
  refine ⟨fun h => ?_, fun h => by rw [← h, fieldOp_wordNNN]⟩
  simpa using congrArg fieldOp h

/-- Masking with 0xF0FF keeps the top nibble and the low byte. -/
theorem and_maskTopLow_eq_iff (w : Word) (op : BitVec 4) (kk : Byte) :
    w &&& 0xF0FF = wordXKK op 0 kk ↔ fieldOp w = op ∧ fieldKK w = kk := by
  rw [← word_of_fieldKK w, wordXKK_maskTopLow]
  refine ⟨fun h => ?_, fun h => by rw [← h.1, ← h.2, fieldOp_wordXKK, fieldKK_wordXKK]⟩
  have h1 := congrArg fieldOp h
  have h2 := congrArg fieldKK h
  simp only [fieldOp_wordXKK, fieldKK_wordXKK] at h1 h2 ⊢
  exact ⟨h1, h2⟩

/-- Masking with 0xF00F keeps the top and the low nibble. -/
theorem and_maskTopNibble_eq_iff (w : Word) (op n : BitVec 4) :
    w &&& 0xF00F = wordXYN op 0 0 n ↔ fieldOp w = op ∧ fieldN w = n := by
  rw [← word_of_fields w, wordXYN_maskTopNibble]
  refine ⟨fun h => ?_, fun h => by rw [← h.1, ← h.2, fieldOp_wordXYN, fieldN_wordXYN]⟩
  have h1 := congrArg fieldOp h
  have h2 := congrArg fieldN h
  simp only [fieldOp_wordXYN, fieldN_wordXYN] at h1 h2 ⊢
  exact ⟨h1, h2⟩

/-! ### Bytes of a word (R78) -/

/-- The high byte and the low byte of a word make the word again. -/
theorem wordOfBytes_bytesOfWord (w : Word) : wordOfBytes (w.extractLsb' 8 8) (w.extractLsb' 0 8) = w := by
  apply BitVec.eq_of_getLsbD_eq
  intro k hk
  have h : (wordOfBytes (w.extractLsb' 8 8) (w.extractLsb' 0 8)).getLsbD k =
      if k < 8 then (w.extractLsb' 0 8).getLsbD k else (w.extractLsb' 8 8).getLsbD (k - 8) :=
    BitVec.getLsbD_append
  rw [h]
  by_cases h8 : k < 8
  · simp [h8]
  · rw [if_neg h8, BitVec.getLsbD_extractLsb', show 8 + (k - 8) = k by omega]
    have : k - 8 < 8 := by omega
    simp [this]

end Sys2Proof
end

