-- ==== Sys2Proof/Laws/State.lean ====
section
/-! SUPPORT. One lemma per field, and per reader of registers, keys, pixels and bytes, for each state update: no
later proof unfolds a record update. -/

namespace Sys2Proof.Machine.State

variable (s : State)

/-! ### `setReg` -/

@[simp] theorem setReg_v (r : Reg) (b : Byte) : (s.setReg r b).v = s.v.set r b := rfl
@[simp] theorem setReg_pc (r : Reg) (b : Byte) : (s.setReg r b).pc = s.pc := rfl
@[simp] theorem setReg_i (r : Reg) (b : Byte) : (s.setReg r b).i = s.i := rfl
@[simp] theorem setReg_stack (r : Reg) (b : Byte) : (s.setReg r b).stack = s.stack := rfl
@[simp] theorem setReg_delay (r : Reg) (b : Byte) : (s.setReg r b).delay = s.delay := rfl
@[simp] theorem setReg_sound (r : Reg) (b : Byte) : (s.setReg r b).sound = s.sound := rfl
@[simp] theorem setReg_mode (r : Reg) (b : Byte) : (s.setReg r b).mode = s.mode := rfl
@[simp] theorem setReg_dirty (r : Reg) (b : Byte) : (s.setReg r b).dirty = s.dirty := rfl
@[simp] theorem setReg_keys (r : Reg) (b : Byte) : (s.setReg r b).keys = s.keys := rfl
@[simp] theorem setReg_fb (r : Reg) (b : Byte) : (s.setReg r b).fb = s.fb := rfl
@[simp] theorem setReg_mem (r : Reg) (b : Byte) : (s.setReg r b).mem = s.mem := rfl
@[simp] theorem setReg_faulted (r : Reg) (b : Byte) : (s.setReg r b).faulted = s.faulted := rfl
@[simp] theorem setReg_config (r : Reg) (b : Byte) : (s.setReg r b).config = s.config := rfl
@[simp] theorem setReg_draws (r : Reg) (b : Byte) : (s.setReg r b).draws = s.draws := rfl
@[simp] theorem setReg_isPressed (r : Reg) (b : Byte) (k : Key) : (s.setReg r b).isPressed k = s.isPressed k := rfl
@[simp] theorem setReg_pixel (r : Reg) (b : Byte) (x : Col) (y : Row) : (s.setReg r b).pixel x y = s.pixel x y := rfl
@[simp] theorem setReg_readByte (r : Reg) (b : Byte) (n : Nat) : (s.setReg r b).readByte n = s.readByte n := rfl

/-! ### `setRegs` -/

@[simp] theorem setRegs_v (bs : List Byte) : (s.setRegs bs).v = writeRegs s.v 0 bs := rfl
@[simp] theorem setRegs_pc (bs : List Byte) : (s.setRegs bs).pc = s.pc := rfl
@[simp] theorem setRegs_i (bs : List Byte) : (s.setRegs bs).i = s.i := rfl
@[simp] theorem setRegs_stack (bs : List Byte) : (s.setRegs bs).stack = s.stack := rfl
@[simp] theorem setRegs_delay (bs : List Byte) : (s.setRegs bs).delay = s.delay := rfl
@[simp] theorem setRegs_sound (bs : List Byte) : (s.setRegs bs).sound = s.sound := rfl
@[simp] theorem setRegs_mode (bs : List Byte) : (s.setRegs bs).mode = s.mode := rfl
@[simp] theorem setRegs_dirty (bs : List Byte) : (s.setRegs bs).dirty = s.dirty := rfl
@[simp] theorem setRegs_keys (bs : List Byte) : (s.setRegs bs).keys = s.keys := rfl
@[simp] theorem setRegs_fb (bs : List Byte) : (s.setRegs bs).fb = s.fb := rfl
@[simp] theorem setRegs_mem (bs : List Byte) : (s.setRegs bs).mem = s.mem := rfl
@[simp] theorem setRegs_faulted (bs : List Byte) : (s.setRegs bs).faulted = s.faulted := rfl
@[simp] theorem setRegs_config (bs : List Byte) : (s.setRegs bs).config = s.config := rfl
@[simp] theorem setRegs_draws (bs : List Byte) : (s.setRegs bs).draws = s.draws := rfl
@[simp] theorem setRegs_isPressed (bs : List Byte) (k : Key) : (s.setRegs bs).isPressed k = s.isPressed k := rfl
@[simp] theorem setRegs_pixel (bs : List Byte) (x : Col) (y : Row) : (s.setRegs bs).pixel x y = s.pixel x y := rfl
@[simp] theorem setRegs_readByte (bs : List Byte) (n : Nat) : (s.setRegs bs).readByte n = s.readByte n := rfl

/-! ### `setI` -/

@[simp] theorem setI_v (w : Word) : (s.setI w).v = s.v := rfl
@[simp] theorem setI_pc (w : Word) : (s.setI w).pc = s.pc := rfl
@[simp] theorem setI_i (w : Word) : (s.setI w).i = w := rfl
@[simp] theorem setI_stack (w : Word) : (s.setI w).stack = s.stack := rfl
@[simp] theorem setI_delay (w : Word) : (s.setI w).delay = s.delay := rfl
@[simp] theorem setI_sound (w : Word) : (s.setI w).sound = s.sound := rfl
@[simp] theorem setI_mode (w : Word) : (s.setI w).mode = s.mode := rfl
@[simp] theorem setI_dirty (w : Word) : (s.setI w).dirty = s.dirty := rfl
@[simp] theorem setI_keys (w : Word) : (s.setI w).keys = s.keys := rfl
@[simp] theorem setI_fb (w : Word) : (s.setI w).fb = s.fb := rfl
@[simp] theorem setI_mem (w : Word) : (s.setI w).mem = s.mem := rfl
@[simp] theorem setI_faulted (w : Word) : (s.setI w).faulted = s.faulted := rfl
@[simp] theorem setI_config (w : Word) : (s.setI w).config = s.config := rfl
@[simp] theorem setI_draws (w : Word) : (s.setI w).draws = s.draws := rfl
@[simp] theorem setI_reg (w : Word) (q : Reg) : (s.setI w).reg q = s.reg q := rfl
@[simp] theorem setI_isPressed (w : Word) (k : Key) : (s.setI w).isPressed k = s.isPressed k := rfl
@[simp] theorem setI_pixel (w : Word) (x : Col) (y : Row) : (s.setI w).pixel x y = s.pixel x y := rfl
@[simp] theorem setI_readByte (w : Word) (n : Nat) : (s.setI w).readByte n = s.readByte n := rfl

/-! ### `advance` -/

@[simp] theorem advance_v : (s.advance).v = s.v := rfl
@[simp] theorem advance_pc : (s.advance).pc = s.pc + 2 := rfl
@[simp] theorem advance_i : (s.advance).i = s.i := rfl
@[simp] theorem advance_stack : (s.advance).stack = s.stack := rfl
@[simp] theorem advance_delay : (s.advance).delay = s.delay := rfl
@[simp] theorem advance_sound : (s.advance).sound = s.sound := rfl
@[simp] theorem advance_mode : (s.advance).mode = s.mode := rfl
@[simp] theorem advance_dirty : (s.advance).dirty = s.dirty := rfl
@[simp] theorem advance_keys : (s.advance).keys = s.keys := rfl
@[simp] theorem advance_fb : (s.advance).fb = s.fb := rfl
@[simp] theorem advance_mem : (s.advance).mem = s.mem := rfl
@[simp] theorem advance_faulted : (s.advance).faulted = s.faulted := rfl
@[simp] theorem advance_config : (s.advance).config = s.config := rfl
@[simp] theorem advance_draws : (s.advance).draws = s.draws := rfl
@[simp] theorem advance_reg (q : Reg) : (s.advance).reg q = s.reg q := rfl
@[simp] theorem advance_isPressed (k : Key) : (s.advance).isPressed k = s.isPressed k := rfl
@[simp] theorem advance_pixel (x : Col) (y : Row) : (s.advance).pixel x y = s.pixel x y := rfl
@[simp] theorem advance_readByte (n : Nat) : (s.advance).readByte n = s.readByte n := rfl

/-! ### `skipIf` -/

@[simp] theorem skipIf_v (c : Bool) : (s.skipIf c).v = s.v := rfl
@[simp] theorem skipIf_pc (c : Bool) : (s.skipIf c).pc = s.pc + if c then 4 else 2 := rfl
@[simp] theorem skipIf_i (c : Bool) : (s.skipIf c).i = s.i := rfl
@[simp] theorem skipIf_stack (c : Bool) : (s.skipIf c).stack = s.stack := rfl
@[simp] theorem skipIf_delay (c : Bool) : (s.skipIf c).delay = s.delay := rfl
@[simp] theorem skipIf_sound (c : Bool) : (s.skipIf c).sound = s.sound := rfl
@[simp] theorem skipIf_mode (c : Bool) : (s.skipIf c).mode = s.mode := rfl
@[simp] theorem skipIf_dirty (c : Bool) : (s.skipIf c).dirty = s.dirty := rfl
@[simp] theorem skipIf_keys (c : Bool) : (s.skipIf c).keys = s.keys := rfl
@[simp] theorem skipIf_fb (c : Bool) : (s.skipIf c).fb = s.fb := rfl
@[simp] theorem skipIf_mem (c : Bool) : (s.skipIf c).mem = s.mem := rfl
@[simp] theorem skipIf_faulted (c : Bool) : (s.skipIf c).faulted = s.faulted := rfl
@[simp] theorem skipIf_config (c : Bool) : (s.skipIf c).config = s.config := rfl
@[simp] theorem skipIf_draws (c : Bool) : (s.skipIf c).draws = s.draws := rfl
@[simp] theorem skipIf_reg (c : Bool) (q : Reg) : (s.skipIf c).reg q = s.reg q := rfl
@[simp] theorem skipIf_isPressed (c : Bool) (k : Key) : (s.skipIf c).isPressed k = s.isPressed k := rfl
@[simp] theorem skipIf_pixel (c : Bool) (x : Col) (y : Row) : (s.skipIf c).pixel x y = s.pixel x y := rfl
@[simp] theorem skipIf_readByte (c : Bool) (n : Nat) : (s.skipIf c).readByte n = s.readByte n := rfl

/-! ### `jumpTo` -/

@[simp] theorem jumpTo_v (w : Word) : (s.jumpTo w).v = s.v := rfl
@[simp] theorem jumpTo_pc (w : Word) : (s.jumpTo w).pc = w := rfl
@[simp] theorem jumpTo_i (w : Word) : (s.jumpTo w).i = s.i := rfl
@[simp] theorem jumpTo_stack (w : Word) : (s.jumpTo w).stack = s.stack := rfl
@[simp] theorem jumpTo_delay (w : Word) : (s.jumpTo w).delay = s.delay := rfl
@[simp] theorem jumpTo_sound (w : Word) : (s.jumpTo w).sound = s.sound := rfl
@[simp] theorem jumpTo_mode (w : Word) : (s.jumpTo w).mode = s.mode := rfl
@[simp] theorem jumpTo_dirty (w : Word) : (s.jumpTo w).dirty = s.dirty := rfl
@[simp] theorem jumpTo_keys (w : Word) : (s.jumpTo w).keys = s.keys := rfl
@[simp] theorem jumpTo_fb (w : Word) : (s.jumpTo w).fb = s.fb := rfl
@[simp] theorem jumpTo_mem (w : Word) : (s.jumpTo w).mem = s.mem := rfl
@[simp] theorem jumpTo_faulted (w : Word) : (s.jumpTo w).faulted = s.faulted := rfl
@[simp] theorem jumpTo_config (w : Word) : (s.jumpTo w).config = s.config := rfl
@[simp] theorem jumpTo_draws (w : Word) : (s.jumpTo w).draws = s.draws := rfl
@[simp] theorem jumpTo_reg (w : Word) (q : Reg) : (s.jumpTo w).reg q = s.reg q := rfl
@[simp] theorem jumpTo_isPressed (w : Word) (k : Key) : (s.jumpTo w).isPressed k = s.isPressed k := rfl
@[simp] theorem jumpTo_pixel (w : Word) (x : Col) (y : Row) : (s.jumpTo w).pixel x y = s.pixel x y := rfl
@[simp] theorem jumpTo_readByte (w : Word) (n : Nat) : (s.jumpTo w).readByte n = s.readByte n := rfl

/-! ### `push` -/

@[simp] theorem push_v (w : Word) : (s.push w).v = s.v := rfl
@[simp] theorem push_pc (w : Word) : (s.push w).pc = s.pc := rfl
@[simp] theorem push_i (w : Word) : (s.push w).i = s.i := rfl
@[simp] theorem push_stack (w : Word) : (s.push w).stack = w :: s.stack := rfl
@[simp] theorem push_delay (w : Word) : (s.push w).delay = s.delay := rfl
@[simp] theorem push_sound (w : Word) : (s.push w).sound = s.sound := rfl
@[simp] theorem push_mode (w : Word) : (s.push w).mode = s.mode := rfl
@[simp] theorem push_dirty (w : Word) : (s.push w).dirty = s.dirty := rfl
@[simp] theorem push_keys (w : Word) : (s.push w).keys = s.keys := rfl
@[simp] theorem push_fb (w : Word) : (s.push w).fb = s.fb := rfl
@[simp] theorem push_mem (w : Word) : (s.push w).mem = s.mem := rfl
@[simp] theorem push_faulted (w : Word) : (s.push w).faulted = s.faulted := rfl
@[simp] theorem push_config (w : Word) : (s.push w).config = s.config := rfl
@[simp] theorem push_draws (w : Word) : (s.push w).draws = s.draws := rfl
@[simp] theorem push_reg (w : Word) (q : Reg) : (s.push w).reg q = s.reg q := rfl
@[simp] theorem push_isPressed (w : Word) (k : Key) : (s.push w).isPressed k = s.isPressed k := rfl
@[simp] theorem push_pixel (w : Word) (x : Col) (y : Row) : (s.push w).pixel x y = s.pixel x y := rfl
@[simp] theorem push_readByte (w : Word) (n : Nat) : (s.push w).readByte n = s.readByte n := rfl

/-! ### `setStack` -/

@[simp] theorem setStack_v (l : List Word) : (s.setStack l).v = s.v := rfl
@[simp] theorem setStack_pc (l : List Word) : (s.setStack l).pc = s.pc := rfl
@[simp] theorem setStack_i (l : List Word) : (s.setStack l).i = s.i := rfl
@[simp] theorem setStack_stack (l : List Word) : (s.setStack l).stack = l := rfl
@[simp] theorem setStack_delay (l : List Word) : (s.setStack l).delay = s.delay := rfl
@[simp] theorem setStack_sound (l : List Word) : (s.setStack l).sound = s.sound := rfl
@[simp] theorem setStack_mode (l : List Word) : (s.setStack l).mode = s.mode := rfl
@[simp] theorem setStack_dirty (l : List Word) : (s.setStack l).dirty = s.dirty := rfl
@[simp] theorem setStack_keys (l : List Word) : (s.setStack l).keys = s.keys := rfl
@[simp] theorem setStack_fb (l : List Word) : (s.setStack l).fb = s.fb := rfl
@[simp] theorem setStack_mem (l : List Word) : (s.setStack l).mem = s.mem := rfl
@[simp] theorem setStack_faulted (l : List Word) : (s.setStack l).faulted = s.faulted := rfl
@[simp] theorem setStack_config (l : List Word) : (s.setStack l).config = s.config := rfl
@[simp] theorem setStack_draws (l : List Word) : (s.setStack l).draws = s.draws := rfl
@[simp] theorem setStack_reg (l : List Word) (q : Reg) : (s.setStack l).reg q = s.reg q := rfl
@[simp] theorem setStack_isPressed (l : List Word) (k : Key) : (s.setStack l).isPressed k = s.isPressed k := rfl
@[simp] theorem setStack_pixel (l : List Word) (x : Col) (y : Row) : (s.setStack l).pixel x y = s.pixel x y := rfl
@[simp] theorem setStack_readByte (l : List Word) (n : Nat) : (s.setStack l).readByte n = s.readByte n := rfl

/-! ### `setDelay` -/

@[simp] theorem setDelay_v (b : Byte) : (s.setDelay b).v = s.v := rfl
@[simp] theorem setDelay_pc (b : Byte) : (s.setDelay b).pc = s.pc := rfl
@[simp] theorem setDelay_i (b : Byte) : (s.setDelay b).i = s.i := rfl
@[simp] theorem setDelay_stack (b : Byte) : (s.setDelay b).stack = s.stack := rfl
@[simp] theorem setDelay_delay (b : Byte) : (s.setDelay b).delay = b := rfl
@[simp] theorem setDelay_sound (b : Byte) : (s.setDelay b).sound = s.sound := rfl
@[simp] theorem setDelay_mode (b : Byte) : (s.setDelay b).mode = s.mode := rfl
@[simp] theorem setDelay_dirty (b : Byte) : (s.setDelay b).dirty = s.dirty := rfl
@[simp] theorem setDelay_keys (b : Byte) : (s.setDelay b).keys = s.keys := rfl
@[simp] theorem setDelay_fb (b : Byte) : (s.setDelay b).fb = s.fb := rfl
@[simp] theorem setDelay_mem (b : Byte) : (s.setDelay b).mem = s.mem := rfl
@[simp] theorem setDelay_faulted (b : Byte) : (s.setDelay b).faulted = s.faulted := rfl
@[simp] theorem setDelay_config (b : Byte) : (s.setDelay b).config = s.config := rfl
@[simp] theorem setDelay_draws (b : Byte) : (s.setDelay b).draws = s.draws := rfl
@[simp] theorem setDelay_reg (b : Byte) (q : Reg) : (s.setDelay b).reg q = s.reg q := rfl
@[simp] theorem setDelay_isPressed (b : Byte) (k : Key) : (s.setDelay b).isPressed k = s.isPressed k := rfl
@[simp] theorem setDelay_pixel (b : Byte) (x : Col) (y : Row) : (s.setDelay b).pixel x y = s.pixel x y := rfl
@[simp] theorem setDelay_readByte (b : Byte) (n : Nat) : (s.setDelay b).readByte n = s.readByte n := rfl

/-! ### `setSound` -/

@[simp] theorem setSound_v (b : Byte) : (s.setSound b).v = s.v := rfl
@[simp] theorem setSound_pc (b : Byte) : (s.setSound b).pc = s.pc := rfl
@[simp] theorem setSound_i (b : Byte) : (s.setSound b).i = s.i := rfl
@[simp] theorem setSound_stack (b : Byte) : (s.setSound b).stack = s.stack := rfl
@[simp] theorem setSound_delay (b : Byte) : (s.setSound b).delay = s.delay := rfl
@[simp] theorem setSound_sound (b : Byte) : (s.setSound b).sound = b := rfl
@[simp] theorem setSound_mode (b : Byte) : (s.setSound b).mode = s.mode := rfl
@[simp] theorem setSound_dirty (b : Byte) : (s.setSound b).dirty = s.dirty := rfl
@[simp] theorem setSound_keys (b : Byte) : (s.setSound b).keys = s.keys := rfl
@[simp] theorem setSound_fb (b : Byte) : (s.setSound b).fb = s.fb := rfl
@[simp] theorem setSound_mem (b : Byte) : (s.setSound b).mem = s.mem := rfl
@[simp] theorem setSound_faulted (b : Byte) : (s.setSound b).faulted = s.faulted := rfl
@[simp] theorem setSound_config (b : Byte) : (s.setSound b).config = s.config := rfl
@[simp] theorem setSound_draws (b : Byte) : (s.setSound b).draws = s.draws := rfl
@[simp] theorem setSound_reg (b : Byte) (q : Reg) : (s.setSound b).reg q = s.reg q := rfl
@[simp] theorem setSound_isPressed (b : Byte) (k : Key) : (s.setSound b).isPressed k = s.isPressed k := rfl
@[simp] theorem setSound_pixel (b : Byte) (x : Col) (y : Row) : (s.setSound b).pixel x y = s.pixel x y := rfl
@[simp] theorem setSound_readByte (b : Byte) (n : Nat) : (s.setSound b).readByte n = s.readByte n := rfl

/-! ### `setMode` -/

@[simp] theorem setMode_v (m : Mode) : (s.setMode m).v = s.v := rfl
@[simp] theorem setMode_pc (m : Mode) : (s.setMode m).pc = s.pc := rfl
@[simp] theorem setMode_i (m : Mode) : (s.setMode m).i = s.i := rfl
@[simp] theorem setMode_stack (m : Mode) : (s.setMode m).stack = s.stack := rfl
@[simp] theorem setMode_delay (m : Mode) : (s.setMode m).delay = s.delay := rfl
@[simp] theorem setMode_sound (m : Mode) : (s.setMode m).sound = s.sound := rfl
@[simp] theorem setMode_mode (m : Mode) : (s.setMode m).mode = m := rfl
@[simp] theorem setMode_dirty (m : Mode) : (s.setMode m).dirty = s.dirty := rfl
@[simp] theorem setMode_keys (m : Mode) : (s.setMode m).keys = s.keys := rfl
@[simp] theorem setMode_fb (m : Mode) : (s.setMode m).fb = s.fb := rfl
@[simp] theorem setMode_mem (m : Mode) : (s.setMode m).mem = s.mem := rfl
@[simp] theorem setMode_faulted (m : Mode) : (s.setMode m).faulted = s.faulted := rfl
@[simp] theorem setMode_config (m : Mode) : (s.setMode m).config = s.config := rfl
@[simp] theorem setMode_draws (m : Mode) : (s.setMode m).draws = s.draws := rfl
@[simp] theorem setMode_reg (m : Mode) (q : Reg) : (s.setMode m).reg q = s.reg q := rfl
@[simp] theorem setMode_isPressed (m : Mode) (k : Key) : (s.setMode m).isPressed k = s.isPressed k := rfl
@[simp] theorem setMode_pixel (m : Mode) (x : Col) (y : Row) : (s.setMode m).pixel x y = s.pixel x y := rfl
@[simp] theorem setMode_readByte (m : Mode) (n : Nat) : (s.setMode m).readByte n = s.readByte n := rfl

/-! ### `afterDraw` -/

@[simp] theorem afterDraw_v : (s.afterDraw).v = s.v := rfl
@[simp] theorem afterDraw_pc : (s.afterDraw).pc = s.pc := rfl
@[simp] theorem afterDraw_i : (s.afterDraw).i = s.i := rfl
@[simp] theorem afterDraw_stack : (s.afterDraw).stack = s.stack := rfl
@[simp] theorem afterDraw_delay : (s.afterDraw).delay = s.delay := rfl
@[simp] theorem afterDraw_sound : (s.afterDraw).sound = s.sound := rfl
@[simp] theorem afterDraw_mode : (s.afterDraw).mode = s.mode := rfl
@[simp] theorem afterDraw_dirty : (s.afterDraw).dirty = s.dirty := rfl
@[simp] theorem afterDraw_keys : (s.afterDraw).keys = s.keys := rfl
@[simp] theorem afterDraw_fb : (s.afterDraw).fb = s.fb := rfl
@[simp] theorem afterDraw_mem : (s.afterDraw).mem = s.mem := rfl
@[simp] theorem afterDraw_faulted : (s.afterDraw).faulted = s.faulted := rfl
@[simp] theorem afterDraw_config : (s.afterDraw).config = s.config := rfl
@[simp] theorem afterDraw_draws : (s.afterDraw).draws = s.draws + 1 := rfl
@[simp] theorem afterDraw_reg (q : Reg) : (s.afterDraw).reg q = s.reg q := rfl
@[simp] theorem afterDraw_isPressed (k : Key) : (s.afterDraw).isPressed k = s.isPressed k := rfl
@[simp] theorem afterDraw_pixel (x : Col) (y : Row) : (s.afterDraw).pixel x y = s.pixel x y := rfl
@[simp] theorem afterDraw_readByte (n : Nat) : (s.afterDraw).readByte n = s.readByte n := rfl

/-! ### `setKey` -/

@[simp] theorem setKey_v (k' : Key) (p : Bool) : (s.setKey k' p).v = s.v := rfl
@[simp] theorem setKey_pc (k' : Key) (p : Bool) : (s.setKey k' p).pc = s.pc := rfl
@[simp] theorem setKey_i (k' : Key) (p : Bool) : (s.setKey k' p).i = s.i := rfl
@[simp] theorem setKey_stack (k' : Key) (p : Bool) : (s.setKey k' p).stack = s.stack := rfl
@[simp] theorem setKey_delay (k' : Key) (p : Bool) : (s.setKey k' p).delay = s.delay := rfl
@[simp] theorem setKey_sound (k' : Key) (p : Bool) : (s.setKey k' p).sound = s.sound := rfl
@[simp] theorem setKey_mode (k' : Key) (p : Bool) : (s.setKey k' p).mode = s.mode := rfl
@[simp] theorem setKey_dirty (k' : Key) (p : Bool) : (s.setKey k' p).dirty = s.dirty := rfl
@[simp] theorem setKey_keys (k' : Key) (p : Bool) : (s.setKey k' p).keys = s.keys.set k' p := rfl
@[simp] theorem setKey_fb (k' : Key) (p : Bool) : (s.setKey k' p).fb = s.fb := rfl
@[simp] theorem setKey_mem (k' : Key) (p : Bool) : (s.setKey k' p).mem = s.mem := rfl
@[simp] theorem setKey_faulted (k' : Key) (p : Bool) : (s.setKey k' p).faulted = s.faulted := rfl
@[simp] theorem setKey_config (k' : Key) (p : Bool) : (s.setKey k' p).config = s.config := rfl
@[simp] theorem setKey_draws (k' : Key) (p : Bool) : (s.setKey k' p).draws = s.draws := rfl
@[simp] theorem setKey_reg (k' : Key) (p : Bool) (q : Reg) : (s.setKey k' p).reg q = s.reg q := rfl
@[simp] theorem setKey_pixel (k' : Key) (p : Bool) (x : Col) (y : Row) : (s.setKey k' p).pixel x y = s.pixel x y := rfl
@[simp] theorem setKey_readByte (k' : Key) (p : Bool) (n : Nat) : (s.setKey k' p).readByte n = s.readByte n := rfl

/-! ### `clearFrame` -/

@[simp] theorem clearFrame_v : (s.clearFrame).v = s.v := rfl
@[simp] theorem clearFrame_pc : (s.clearFrame).pc = s.pc := rfl
@[simp] theorem clearFrame_i : (s.clearFrame).i = s.i := rfl
@[simp] theorem clearFrame_stack : (s.clearFrame).stack = s.stack := rfl
@[simp] theorem clearFrame_delay : (s.clearFrame).delay = s.delay := rfl
@[simp] theorem clearFrame_sound : (s.clearFrame).sound = s.sound := rfl
@[simp] theorem clearFrame_mode : (s.clearFrame).mode = s.mode := rfl
@[simp] theorem clearFrame_dirty : (s.clearFrame).dirty = s.dirty := rfl
@[simp] theorem clearFrame_keys : (s.clearFrame).keys = s.keys := rfl
@[simp] theorem clearFrame_fb : (s.clearFrame).fb = Vector.replicate fbH (Vector.replicate fbW false) := rfl
@[simp] theorem clearFrame_mem : (s.clearFrame).mem = s.mem := rfl
@[simp] theorem clearFrame_faulted : (s.clearFrame).faulted = s.faulted := rfl
@[simp] theorem clearFrame_config : (s.clearFrame).config = s.config := rfl
@[simp] theorem clearFrame_draws : (s.clearFrame).draws = s.draws := rfl
@[simp] theorem clearFrame_reg (q : Reg) : (s.clearFrame).reg q = s.reg q := rfl
@[simp] theorem clearFrame_isPressed (k : Key) : (s.clearFrame).isPressed k = s.isPressed k := rfl
@[simp] theorem clearFrame_readByte (n : Nat) : (s.clearFrame).readByte n = s.readByte n := rfl

/-! ### `markDirty` -/

@[simp] theorem markDirty_v : (s.markDirty).v = s.v := rfl
@[simp] theorem markDirty_pc : (s.markDirty).pc = s.pc := rfl
@[simp] theorem markDirty_i : (s.markDirty).i = s.i := rfl
@[simp] theorem markDirty_stack : (s.markDirty).stack = s.stack := rfl
@[simp] theorem markDirty_delay : (s.markDirty).delay = s.delay := rfl
@[simp] theorem markDirty_sound : (s.markDirty).sound = s.sound := rfl
@[simp] theorem markDirty_mode : (s.markDirty).mode = s.mode := rfl
@[simp] theorem markDirty_dirty : (s.markDirty).dirty = true := rfl
@[simp] theorem markDirty_keys : (s.markDirty).keys = s.keys := rfl
@[simp] theorem markDirty_fb : (s.markDirty).fb = s.fb := rfl
@[simp] theorem markDirty_mem : (s.markDirty).mem = s.mem := rfl
@[simp] theorem markDirty_faulted : (s.markDirty).faulted = s.faulted := rfl
@[simp] theorem markDirty_config : (s.markDirty).config = s.config := rfl
@[simp] theorem markDirty_draws : (s.markDirty).draws = s.draws := rfl
@[simp] theorem markDirty_reg (q : Reg) : (s.markDirty).reg q = s.reg q := rfl
@[simp] theorem markDirty_isPressed (k : Key) : (s.markDirty).isPressed k = s.isPressed k := rfl
@[simp] theorem markDirty_pixel (x : Col) (y : Row) : (s.markDirty).pixel x y = s.pixel x y := rfl
@[simp] theorem markDirty_readByte (n : Nat) : (s.markDirty).readByte n = s.readByte n := rfl

/-! ### `writeByte` -/

@[simp] theorem writeByte_v (a : Nat) (b : Byte) : (s.writeByte a b).v = s.v := rfl
@[simp] theorem writeByte_pc (a : Nat) (b : Byte) : (s.writeByte a b).pc = s.pc := rfl
@[simp] theorem writeByte_i (a : Nat) (b : Byte) : (s.writeByte a b).i = s.i := rfl
@[simp] theorem writeByte_stack (a : Nat) (b : Byte) : (s.writeByte a b).stack = s.stack := rfl
@[simp] theorem writeByte_delay (a : Nat) (b : Byte) : (s.writeByte a b).delay = s.delay := rfl
@[simp] theorem writeByte_sound (a : Nat) (b : Byte) : (s.writeByte a b).sound = s.sound := rfl
@[simp] theorem writeByte_mode (a : Nat) (b : Byte) : (s.writeByte a b).mode = s.mode := rfl
@[simp] theorem writeByte_dirty (a : Nat) (b : Byte) : (s.writeByte a b).dirty = s.dirty := rfl
@[simp] theorem writeByte_keys (a : Nat) (b : Byte) : (s.writeByte a b).keys = s.keys := rfl
@[simp] theorem writeByte_fb (a : Nat) (b : Byte) : (s.writeByte a b).fb = s.fb := rfl
@[simp] theorem writeByte_mem (a : Nat) (b : Byte) : (s.writeByte a b).mem = Memory.write s.config s.mem a b := rfl
@[simp] theorem writeByte_faulted (a : Nat) (b : Byte) : (s.writeByte a b).faulted = s.faulted := rfl
@[simp] theorem writeByte_config (a : Nat) (b : Byte) : (s.writeByte a b).config = s.config := rfl
@[simp] theorem writeByte_draws (a : Nat) (b : Byte) : (s.writeByte a b).draws = s.draws := rfl
@[simp] theorem writeByte_reg (a : Nat) (b : Byte) (q : Reg) : (s.writeByte a b).reg q = s.reg q := rfl
@[simp] theorem writeByte_isPressed (a : Nat) (b : Byte) (k : Key) : (s.writeByte a b).isPressed k = s.isPressed k := rfl
@[simp] theorem writeByte_pixel (a : Nat) (b : Byte) (x : Col) (y : Row) : (s.writeByte a b).pixel x y = s.pixel x y := rfl

/-! ### `storeBytes` -/

@[simp] theorem storeBytes_v (a : Nat) (bs : List Byte) : (s.storeBytes a bs).v = s.v := rfl
@[simp] theorem storeBytes_pc (a : Nat) (bs : List Byte) : (s.storeBytes a bs).pc = s.pc := rfl
@[simp] theorem storeBytes_i (a : Nat) (bs : List Byte) : (s.storeBytes a bs).i = s.i := rfl
@[simp] theorem storeBytes_stack (a : Nat) (bs : List Byte) : (s.storeBytes a bs).stack = s.stack := rfl
@[simp] theorem storeBytes_delay (a : Nat) (bs : List Byte) : (s.storeBytes a bs).delay = s.delay := rfl
@[simp] theorem storeBytes_sound (a : Nat) (bs : List Byte) : (s.storeBytes a bs).sound = s.sound := rfl
@[simp] theorem storeBytes_mode (a : Nat) (bs : List Byte) : (s.storeBytes a bs).mode = s.mode := rfl
@[simp] theorem storeBytes_dirty (a : Nat) (bs : List Byte) : (s.storeBytes a bs).dirty = s.dirty := rfl
@[simp] theorem storeBytes_keys (a : Nat) (bs : List Byte) : (s.storeBytes a bs).keys = s.keys := rfl
@[simp] theorem storeBytes_fb (a : Nat) (bs : List Byte) : (s.storeBytes a bs).fb = s.fb := rfl
@[simp] theorem storeBytes_mem (a : Nat) (bs : List Byte) : (s.storeBytes a bs).mem = Memory.writeBytes s.config s.mem a bs := rfl
@[simp] theorem storeBytes_faulted (a : Nat) (bs : List Byte) : (s.storeBytes a bs).faulted = s.faulted := rfl
@[simp] theorem storeBytes_config (a : Nat) (bs : List Byte) : (s.storeBytes a bs).config = s.config := rfl
@[simp] theorem storeBytes_draws (a : Nat) (bs : List Byte) : (s.storeBytes a bs).draws = s.draws := rfl
@[simp] theorem storeBytes_reg (a : Nat) (bs : List Byte) (q : Reg) : (s.storeBytes a bs).reg q = s.reg q := rfl
@[simp] theorem storeBytes_isPressed (a : Nat) (bs : List Byte) (k : Key) : (s.storeBytes a bs).isPressed k = s.isPressed k := rfl
@[simp] theorem storeBytes_pixel (a : Nat) (bs : List Byte) (x : Col) (y : Row) : (s.storeBytes a bs).pixel x y = s.pixel x y := rfl

/-! ### `takeFault` -/

@[simp] theorem takeFault_v (f : Fault) : (s.takeFault f).v = s.v := rfl
@[simp] theorem takeFault_pc (f : Fault) : (s.takeFault f).pc = s.pc := rfl
@[simp] theorem takeFault_i (f : Fault) : (s.takeFault f).i = s.i := rfl
@[simp] theorem takeFault_stack (f : Fault) : (s.takeFault f).stack = s.stack := rfl
@[simp] theorem takeFault_delay (f : Fault) : (s.takeFault f).delay = s.delay := rfl
@[simp] theorem takeFault_sound (f : Fault) : (s.takeFault f).sound = s.sound := rfl
@[simp] theorem takeFault_mode (f : Fault) : (s.takeFault f).mode = s.mode := rfl
@[simp] theorem takeFault_dirty (f : Fault) : (s.takeFault f).dirty = s.dirty := rfl
@[simp] theorem takeFault_keys (f : Fault) : (s.takeFault f).keys = s.keys := rfl
@[simp] theorem takeFault_fb (f : Fault) : (s.takeFault f).fb = s.fb := rfl
@[simp] theorem takeFault_mem (f : Fault) : (s.takeFault f).mem = s.mem := rfl
@[simp] theorem takeFault_faulted (f : Fault) : (s.takeFault f).faulted = some f := rfl
@[simp] theorem takeFault_config (f : Fault) : (s.takeFault f).config = s.config := rfl
@[simp] theorem takeFault_draws (f : Fault) : (s.takeFault f).draws = s.draws := rfl
@[simp] theorem takeFault_reg (f : Fault) (q : Reg) : (s.takeFault f).reg q = s.reg q := rfl
@[simp] theorem takeFault_isPressed (f : Fault) (k : Key) : (s.takeFault f).isPressed k = s.isPressed k := rfl
@[simp] theorem takeFault_pixel (f : Fault) (x : Col) (y : Row) : (s.takeFault f).pixel x y = s.pixel x y := rfl
@[simp] theorem takeFault_readByte (f : Fault) (n : Nat) : (s.takeFault f).readByte n = s.readByte n := rfl

/-! ### `timerTick` -/

@[simp] theorem timerTick_v : (s.timerTick).v = s.v := rfl
@[simp] theorem timerTick_pc : (s.timerTick).pc = s.pc := rfl
@[simp] theorem timerTick_i : (s.timerTick).i = s.i := rfl
@[simp] theorem timerTick_stack : (s.timerTick).stack = s.stack := rfl
@[simp] theorem timerTick_delay : (s.timerTick).delay = tickTimer s.delay := rfl
@[simp] theorem timerTick_sound : (s.timerTick).sound = tickTimer s.sound := rfl
@[simp] theorem timerTick_mode : (s.timerTick).mode = s.mode := rfl
@[simp] theorem timerTick_dirty : (s.timerTick).dirty = s.dirty := rfl
@[simp] theorem timerTick_keys : (s.timerTick).keys = s.keys := rfl
@[simp] theorem timerTick_fb : (s.timerTick).fb = s.fb := rfl
@[simp] theorem timerTick_mem : (s.timerTick).mem = s.mem := rfl
@[simp] theorem timerTick_faulted : (s.timerTick).faulted = s.faulted := rfl
@[simp] theorem timerTick_config : (s.timerTick).config = s.config := rfl
@[simp] theorem timerTick_draws : (s.timerTick).draws = s.draws := rfl
@[simp] theorem timerTick_reg (q : Reg) : (s.timerTick).reg q = s.reg q := rfl
@[simp] theorem timerTick_isPressed (k : Key) : (s.timerTick).isPressed k = s.isPressed k := rfl
@[simp] theorem timerTick_pixel (x : Col) (y : Row) : (s.timerTick).pixel x y = s.pixel x y := rfl
@[simp] theorem timerTick_readByte (n : Nat) : (s.timerTick).readByte n = s.readByte n := rfl

/-! ### `frameOut` -/

@[simp] theorem frameOut_v : (s.frameOut).v = s.v := rfl
@[simp] theorem frameOut_pc : (s.frameOut).pc = s.pc := rfl
@[simp] theorem frameOut_i : (s.frameOut).i = s.i := rfl
@[simp] theorem frameOut_stack : (s.frameOut).stack = s.stack := rfl
@[simp] theorem frameOut_delay : (s.frameOut).delay = s.delay := rfl
@[simp] theorem frameOut_sound : (s.frameOut).sound = s.sound := rfl
@[simp] theorem frameOut_mode : (s.frameOut).mode = s.mode := rfl
@[simp] theorem frameOut_dirty : (s.frameOut).dirty = false := rfl
@[simp] theorem frameOut_keys : (s.frameOut).keys = s.keys := rfl
@[simp] theorem frameOut_fb : (s.frameOut).fb = s.fb := rfl
@[simp] theorem frameOut_mem : (s.frameOut).mem = s.mem := rfl
@[simp] theorem frameOut_faulted : (s.frameOut).faulted = s.faulted := rfl
@[simp] theorem frameOut_config : (s.frameOut).config = s.config := rfl
@[simp] theorem frameOut_draws : (s.frameOut).draws = s.draws := rfl
@[simp] theorem frameOut_reg (q : Reg) : (s.frameOut).reg q = s.reg q := rfl
@[simp] theorem frameOut_isPressed (k : Key) : (s.frameOut).isPressed k = s.isPressed k := rfl
@[simp] theorem frameOut_pixel (x : Col) (y : Row) : (s.frameOut).pixel x y = s.pixel x y := rfl
@[simp] theorem frameOut_readByte (n : Nat) : (s.frameOut).readByte n = s.readByte n := rfl

end Sys2Proof.Machine.State
end

