-- ==== Sys2Proof/Laws/Frame.lean ====
section
/-! SUPPORT. The frame and the rasterizer: every pixel, and the collision flag, after a draw (R261 to R263). -/

namespace Sys2Proof.Machine

theorem getPixel_setPixel (fb : Frame) (x x' : Col) (y y' : Row) (c : Bool) :
    (fb.setPixel x y c).getPixel x' y' = if x' = x ∧ y' = y then c else fb.getPixel x' y' := by
  unfold Frame.setPixel Frame.getPixel
  by_cases hy : y' = y
  · subst hy
    by_cases hx : x' = x
    · subst hx; simp
    · have : (x : Nat) ≠ x' := fun h => hx (Fin.ext h.symm)
      simp [hx, this]
  · have : (y : Nat) ≠ y' := fun h => hy (Fin.ext h.symm)
    simp [hy, this]

/-- Whether some lit in-bounds bit satisfies a condition: the shape of every collision claim. -/
def LitOnWhite (fb : Frame) (lit : Nat → Nat → Bool) : Prop :=
  ∃ (x : Col) (y : Row), lit x.val y.val = true ∧ fb.getPixel x y = true

/-- One plotted bit: it flips its pixel and collides exactly if that was White. -/
theorem plotBit_spec (bit : Bool) (X Y : Nat) (c : Canvas) :
    (∀ (x : Col) (y : Row), (plotBit bit X Y c).fb.getPixel x y =
      (c.fb.getPixel x y ^^ (bit && decide (x.val = X ∧ y.val = Y)))) ∧
    ((plotBit bit X Y c).hit = true ↔
      c.hit = true ∨ LitOnWhite c.fb fun a b => bit && decide (a = X ∧ b = Y)) := by
  unfold plotBit
  by_cases h : X < fbW ∧ Y < fbH
  · rw [dif_pos h]
    have hidx : ∀ (x : Col) (y : Row), (x = ⟨X, h.1⟩ ∧ y = ⟨Y, h.2⟩) ↔ (x.val = X ∧ y.val = Y) := by
      intro x y; constructor
      · rintro ⟨rfl, rfl⟩; exact ⟨rfl, rfl⟩
      · rintro ⟨hx, hy⟩; exact ⟨Fin.ext hx, Fin.ext hy⟩
    cases bit with
    | false => simp [LitOnWhite]
    | true =>
      cases hp : c.fb.getPixel ⟨X, h.1⟩ ⟨Y, h.2⟩ with
      | true =>
        refine ⟨fun x y => ?_, ?_⟩
        · simp only [getPixel_setPixel, hidx, Bool.true_and]
          by_cases hxy : x.val = X ∧ y.val = Y
          · obtain ⟨rfl, rfl⟩ := (hidx x y).mpr hxy; simp [hp]
          · simp [hxy]
        · simp only [true_iff]
          exact .inr ⟨⟨X, h.1⟩, ⟨Y, h.2⟩, by simp, hp⟩
      | false =>
        refine ⟨fun x y => ?_, ?_⟩
        · simp only [getPixel_setPixel, hidx, Bool.true_and]
          by_cases hxy : x.val = X ∧ y.val = Y
          · obtain ⟨rfl, rfl⟩ := (hidx x y).mpr hxy; simp [hp]
          · simp [hxy]
        · constructor
          · exact .inl
          · rintro (h' | ⟨x, y, hl, hw⟩)
            · exact h'
            · simp only [Bool.true_and, decide_eq_true_eq] at hl
              obtain ⟨rfl, rfl⟩ := (hidx x y).mpr hl
              rw [hp] at hw; cases hw
  · rw [dif_neg h]
    have hno : ∀ (x : Col) (y : Row), ¬ (x.val = X ∧ y.val = Y) := by
      rintro x y ⟨hx, hy⟩; exact h ⟨hx ▸ x.isLt, hy ▸ y.isLt⟩
    refine ⟨fun x y => by simp [hno x y], ?_⟩
    constructor
    · exact .inl
    · rintro (h' | ⟨x, y, hl, _⟩)
      · exact h'
      · simp [hno x y] at hl

/-- Two draws one after the other, of bits that never fall on one pixel, are one draw of both. -/
theorem draws_compose {fb₀ fb₁ fb₂ : Frame} {hit₀ hit₁ hit₂ : Bool} {l₁ l₂ l : Nat → Nat → Bool}
    (hdisj : ∀ a b, l₁ a b = true → l₂ a b = false) (hl : ∀ a b, l a b = (l₁ a b || l₂ a b))
    (h₁ : (∀ (x : Col) (y : Row), fb₁.getPixel x y = (fb₀.getPixel x y ^^ l₁ x.val y.val)) ∧
      (hit₁ = true ↔ hit₀ = true ∨ LitOnWhite fb₀ l₁))
    (h₂ : (∀ (x : Col) (y : Row), fb₂.getPixel x y = (fb₁.getPixel x y ^^ l₂ x.val y.val)) ∧
      (hit₂ = true ↔ hit₁ = true ∨ LitOnWhite fb₁ l₂)) :
    (∀ (x : Col) (y : Row), fb₂.getPixel x y = (fb₀.getPixel x y ^^ l x.val y.val)) ∧
      (hit₂ = true ↔ hit₀ = true ∨ LitOnWhite fb₀ l) := by
  refine ⟨fun x y => ?_, ?_⟩
  · rw [h₂.1, h₁.1, hl]
    have := hdisj x.val y.val
    cases h : l₁ x.val y.val <;> cases h' : l₂ x.val y.val <;> simp_all
  · rw [h₂.2, h₁.2, or_assoc]
    apply or_congr Iff.rfl
    constructor
    · rintro (⟨x, y, hx, hw⟩ | ⟨x, y, hx, hw⟩)
      · exact ⟨x, y, by simp [hl, hx], hw⟩
      · refine ⟨x, y, by simp [hl, hx], ?_⟩
        rw [h₁.1] at hw
        cases h : l₁ x.val y.val
        · simpa [h] using hw
        · simp [hdisj _ _ h] at hx
    · rintro ⟨x, y, hx, hw⟩
      cases h : l₁ x.val y.val
      · refine .inr ⟨x, y, by simpa [hl, h] using hx, ?_⟩
        rw [h₁.1, h]; simpa using hw
      · exact .inl ⟨x, y, h, hw⟩

/-- The first `n` bits of one sprite row. -/
theorem plotBits_spec (b : Byte) (px Y n : Nat) (c : Canvas) :
    (∀ (x : Col) (y : Row),
      ((List.range n).foldl (fun c k => plotBit (spriteRowBit b k) (px + k) Y c) c).fb.getPixel x y =
        (c.fb.getPixel x y ^^
          (decide (px ≤ x.val ∧ x.val < px + n ∧ y.val = Y) && spriteRowBit b (x.val - px)))) ∧
    (((List.range n).foldl (fun c k => plotBit (spriteRowBit b k) (px + k) Y c) c).hit = true ↔
      c.hit = true ∨ LitOnWhite c.fb fun p q =>
        decide (px ≤ p ∧ p < px + n ∧ q = Y) && spriteRowBit b (p - px)) := by
  induction n with
  | zero =>
    have hz : ∀ p q, (decide (px ≤ p ∧ p < px + 0 ∧ q = Y) && spriteRowBit b (p - px)) = false := by
      intro p q
      rw [decide_eq_false (by omega), Bool.false_and]
    simp only [List.range_zero, List.foldl_nil, hz, Bool.xor_false, LitOnWhite]
    simp
  | succ n ih =>
    rw [List.range_succ, List.foldl_append]
    simp only [List.foldl_cons, List.foldl_nil]
    refine draws_compose
      (l₁ := fun p q => decide (px ≤ p ∧ p < px + n ∧ q = Y) && spriteRowBit b (p - px))
      (l₂ := fun p q => spriteRowBit b n && decide (p = px + n ∧ q = Y))
      (l := fun p q => decide (px ≤ p ∧ p < px + (n + 1) ∧ q = Y) && spriteRowBit b (p - px))
      ?_ ?_ ih (plotBit_spec _ _ _ _)
    · intro p q h
      simp only [Bool.and_eq_true, decide_eq_true_eq] at h
      rw [decide_eq_false (by omega), Bool.and_false]
    · intro p q
      by_cases hp : p = px + n ∧ q = Y
      · obtain ⟨rfl, rfl⟩ := hp
        rw [decide_eq_true (by omega), decide_eq_false (by omega), decide_eq_true ⟨rfl, rfl⟩,
          Nat.add_sub_cancel_left]
        simp
      · have : (px ≤ p ∧ p < px + (n + 1) ∧ q = Y) ↔ (px ≤ p ∧ p < px + n ∧ q = Y) := by omega
        rw [decide_eq_decide.mpr this, decide_eq_false hp, Bool.and_false, Bool.or_false]

theorem spriteLit_nil (px py X Y : Nat) : spriteLit [] px py X Y = false := by
  unfold spriteLit
  have : ¬ (px ≤ X ∧ X < px + 8 ∧ py ≤ Y ∧ Y < py + ([] : List Byte).length) := by simp
  rw [decide_eq_false this]; rfl

theorem spriteLit_cons (b : Byte) (bs : List Byte) (px py X Y : Nat) :
    spriteLit (b :: bs) px py X Y =
      ((decide (px ≤ X ∧ X < px + 8 ∧ Y = py) && spriteRowBit b (X - px)) ||
        spriteLit bs px (py + 1) X Y) := by
  unfold spriteLit spriteRowBit
  by_cases hy : Y = py
  · subst hy
    have h2 : ¬ (px ≤ X ∧ X < px + 8 ∧ Y + 1 ≤ Y ∧ Y < Y + 1 + bs.length) := by omega
    have h1 : (px ≤ X ∧ X < px + 8 ∧ Y ≤ Y ∧ Y < Y + (b :: bs).length) ↔ (px ≤ X ∧ X < px + 8 ∧ Y = Y) := by
      rw [List.length_cons]
      exact ⟨fun h => ⟨h.1, h.2.1, rfl⟩, fun h => ⟨h.1, h.2.1, Nat.le_refl _, by omega⟩⟩
    rw [decide_eq_false h2, decide_eq_decide.mpr h1, Bool.false_and, Bool.or_false, Nat.sub_self,
      List.getD_cons_zero]
  · have h3 : ¬ (px ≤ X ∧ X < px + 8 ∧ Y = py) := by omega
    rw [decide_eq_false h3, Bool.false_and, Bool.false_or]
    by_cases hin : px ≤ X ∧ X < px + 8 ∧ py + 1 ≤ Y ∧ Y < py + 1 + bs.length
    · have h1 : px ≤ X ∧ X < px + 8 ∧ py ≤ Y ∧ Y < py + (b :: bs).length := by
        simp only [List.length_cons]; omega
      have h4 : Y - py = (Y - (py + 1)) + 1 := by omega
      rw [decide_eq_true hin, decide_eq_true h1, h4, List.getD_cons_succ]
    · have h1 : ¬ (px ≤ X ∧ X < px + 8 ∧ py ≤ Y ∧ Y < py + (b :: bs).length) := by
        simp only [List.length_cons]; omega
      rw [decide_eq_false hin, decide_eq_false h1, Bool.false_and, Bool.false_and]

/-- A whole sprite: every pixel is flipped exactly if the sprite is lit on it, and the draw collides exactly if
a lit bit falls on a pixel that was White before the draw. -/
theorem plotRows_spec (px : Nat) (rows : List Byte) :
    ∀ (py : Nat) (c : Canvas),
      (∀ (x : Col) (y : Row), (plotRows px py rows c).fb.getPixel x y =
        (c.fb.getPixel x y ^^ spriteLit rows px py x.val y.val)) ∧
      ((plotRows px py rows c).hit = true ↔ c.hit = true ∨ LitOnWhite c.fb (spriteLit rows px py)) := by
  induction rows with
  | nil => intro py c; simp [plotRows, spriteLit_nil, LitOnWhite]
  | cons b bs ih =>
    intro py c
    refine draws_compose (fb₁ := (plotRow b px py c).fb) (hit₁ := (plotRow b px py c).hit)
      ?_ (spriteLit_cons b bs px py) (plotBits_spec b px py 8 c) (ih (py + 1) (plotRow b px py c))
    intro p q h
    simp only [Bool.and_eq_true, decide_eq_true_eq] at h
    unfold spriteLit
    have : ¬ (px ≤ p ∧ p < px + 8 ∧ py + 1 ≤ q ∧ q < py + 1 + bs.length) := by omega
    rw [decide_eq_false this, Bool.false_and]

end Sys2Proof.Machine
end

