-- ==== Sys2Proof/Laws/Memory.lean ====
section
/-! SUPPORT. Memory: reading after writing, the canonical form, and what the access primitives can do. -/

namespace Sys2Proof.Machine

/-! ### Lookups -/

theorem lookup_erase (m : Memory) (a b : Nat) :
    Memory.lookup (Memory.erase m a) b = if b = a then none else Memory.lookup m b := by
  induction m with
  | nil => simp [Memory.erase, Memory.lookup]
  | cons p m ih =>
    obtain ⟨k, v⟩ := p
    by_cases hk : k = a
    · subst hk
      by_cases hb : b = k
      · subst hb; simpa [Memory.erase] using ih
      · simp [Memory.erase, Memory.lookup, ih, hb, Ne.symm hb]
    · by_cases hb : k = b
      · subst hb; simp [Memory.erase, Memory.lookup, hk]
      · simp [Memory.erase, Memory.lookup, hk, hb, ih]

theorem lookup_insert_self (m : Memory) (a : Nat) (v : Byte) (h : Memory.lookup m a = none) :
    Memory.lookup (Memory.insert m a v) a = some v := by
  induction m with
  | nil => simp [Memory.insert, Memory.lookup]
  | cons p m ih =>
    obtain ⟨k, w⟩ := p
    by_cases hk : k = a
    · simp [Memory.lookup, hk] at h
    · simp only [Memory.lookup, hk, if_false] at h
      by_cases hl : a < k <;> simp [Memory.insert, Memory.lookup, hl, hk, ih h]

theorem lookup_insert_ne (m : Memory) {a b : Nat} (v : Byte) (hb : b ≠ a) :
    Memory.lookup (Memory.insert m a v) b = Memory.lookup m b := by
  induction m with
  | nil => simp [Memory.insert, Memory.lookup, Ne.symm hb]
  | cons p m ih =>
    obtain ⟨k, w⟩ := p
    by_cases hl : a < k
    · simp [Memory.insert, Memory.lookup, hl, Ne.symm hb]
    · simp [Memory.insert, Memory.lookup, hl, ih]

theorem lookup_write (c : Config) (m : Memory) (a b : Nat) (v : Byte) :
    (Memory.lookup (Memory.write c m a v) b).getD (c.initialByte b) =
      if b = a then v else (Memory.lookup m b).getD (c.initialByte b) := by
  unfold Memory.write
  by_cases hb : b = a
  · subst hb
    by_cases hv : v = c.initialByte b
    · simp [hv, lookup_erase]
    · simp [hv, lookup_insert_self, lookup_erase]
  · by_cases hv : v = c.initialByte a <;> simp [hv, hb, lookup_erase, lookup_insert_ne]

/-! ### The canonical form -/

theorem mem_erase {m : Memory} {a : Nat} {p : Host.Cell} :
    p ∈ Memory.erase m a ↔ p ∈ m ∧ p.1 ≠ a := by
  induction m with
  | nil => simp [Memory.erase]
  | cons q m ih =>
    obtain ⟨k, w⟩ := q
    by_cases hk : k = a
    · simp only [Memory.erase, hk, if_true, ih, List.mem_cons]
      constructor
      · rintro ⟨h, h'⟩; exact ⟨.inr h, h'⟩
      · rintro ⟨h | h, h'⟩
        · subst h; simp at h'
        · exact ⟨h, h'⟩
    · simp only [Memory.erase, hk, if_false, ih, List.mem_cons]
      constructor
      · rintro (h | ⟨h, h'⟩)
        · subst h; exact ⟨.inl rfl, hk⟩
        · exact ⟨.inr h, h'⟩
      · rintro ⟨h | h, h'⟩
        · exact .inl h
        · exact .inr ⟨h, h'⟩

theorem mem_insert {m : Memory} {a : Nat} {v : Byte} {p : Host.Cell} :
    p ∈ Memory.insert m a v ↔ p = (a, v) ∨ p ∈ m := by
  induction m with
  | nil => simp [Memory.insert]
  | cons q m ih =>
    obtain ⟨k, w⟩ := q
    by_cases hl : a < k
    · simp [Memory.insert, hl]
    · simp only [Memory.insert, hl, if_false, List.mem_cons, ih]
      tauto

theorem erase_rising {m : Memory} {a : Nat} (h : m.Pairwise (fun p q => p.1 < q.1)) :
    (Memory.erase m a).Pairwise (fun p q => p.1 < q.1) := by
  induction m with
  | nil => simp [Memory.erase]
  | cons q m ih =>
    obtain ⟨k, w⟩ := q
    rw [List.pairwise_cons] at h
    by_cases hk : k = a
    · simpa [Memory.erase, hk] using ih h.2
    · simp only [Memory.erase, hk, if_false, List.pairwise_cons]
      exact ⟨fun p hp => h.1 p (mem_erase.mp hp).1, ih h.2⟩

theorem insert_rising {m : Memory} {a : Nat} {v : Byte} (h : m.Pairwise (fun p q => p.1 < q.1))
    (ha : ∀ p ∈ m, p.1 ≠ a) : (Memory.insert m a v).Pairwise (fun p q => p.1 < q.1) := by
  induction m with
  | nil => simp [Memory.insert]
  | cons q m ih =>
    obtain ⟨k, w⟩ := q
    have hcons := List.pairwise_cons.mp h
    by_cases hl : a < k
    · simp only [Memory.insert, hl, if_true, List.pairwise_cons]
      refine ⟨?_, hcons⟩
      intro p hp
      rcases List.mem_cons.mp hp with hp | hp
      · subst hp; exact hl
      · exact Nat.lt_trans hl (hcons.1 p hp)
    · simp only [Memory.insert, hl, if_false, List.pairwise_cons]
      refine ⟨?_, ih hcons.2 fun p hp => ha p (List.mem_cons_of_mem _ hp)⟩
      intro p hp
      rcases mem_insert.mp hp with hp | hp
      · subst hp
        have := ha (k, w) (by simp)
        simp only at this ⊢
        omega
      · exact hcons.1 p hp

/-- Every write inside the address space keeps the canonical form. -/
theorem write_wf {c : Config} {m : Memory} {a : Nat} {v : Byte} (h : Memory.wf c m) (ha : a < memSize) :
    Memory.wf c (Memory.write c m a v) := by
  have herase : Memory.wf c (Memory.erase m a) :=
    ⟨erase_rising h.1, fun p hp => h.2 p (mem_erase.mp hp).1⟩
  unfold Memory.write
  split
  · exact herase
  · refine ⟨insert_rising herase.1 fun p hp => (mem_erase.mp hp).2, fun p hp => ?_⟩
    rcases mem_insert.mp hp with hp | hp
    · subst hp; exact ⟨ha, by assumption⟩
    · exact herase.2 p hp

theorem writeBytes_wf {c : Config} {bs : List Byte} :
    ∀ {m : Memory} {a : Nat}, Memory.wf c m → a + bs.length ≤ memSize →
      Memory.wf c (Memory.writeBytes c m a bs) := by
  induction bs with
  | nil => intro m a h _; exact h
  | cons b bs ih =>
    intro m a h ha
    simp only [List.length_cons] at ha
    exact ih (write_wf h (by omega)) (by omega)

theorem nil_wf (c : Config) : Memory.wf c [] := ⟨List.Pairwise.nil, by simp⟩

/-- A listed byte is what the memory reads as, and differs from the reset contents. -/
theorem lookup_of_mem {m : Memory} (h : m.Pairwise (fun p q => p.1 < q.1)) {a : Nat} {v : Byte}
    (hm : (a, v) ∈ m) : Memory.lookup m a = some v := by
  induction m with
  | nil => simp at hm
  | cons q m ih =>
    obtain ⟨k, w⟩ := q
    have hcons := List.pairwise_cons.mp h
    rcases List.mem_cons.mp hm with hm | hm
    · cases hm; simp [Memory.lookup]
    · have : k < a := hcons.1 _ hm
      simp [Memory.lookup, Nat.ne_of_lt this, ih hcons.2 hm]

theorem mem_of_lookup {m : Memory} {a : Nat} {v : Byte} (h : Memory.lookup m a = some v) : (a, v) ∈ m := by
  induction m with
  | nil => simp [Memory.lookup] at h
  | cons q m ih =>
    obtain ⟨k, w⟩ := q
    by_cases hk : k = a
    · simp [Memory.lookup, hk] at h; simp [hk, h]
    · simp [Memory.lookup, hk] at h; exact List.mem_cons_of_mem _ (ih h)

/-! ### Reading after writing -/

theorem readByte_writeByte (s : State) (a b : Nat) (v : Byte) :
    (s.writeByte a v).readByte b = if b = a then v else s.readByte b :=
  lookup_write s.config s.mem a b v

theorem lookup_writeBytes (c : Config) (bs : List Byte) :
    ∀ (m : Memory) (a b : Nat),
      (Memory.lookup (Memory.writeBytes c m a bs) b).getD (c.initialByte b) =
        if a ≤ b ∧ b < a + bs.length then bs.getD (b - a) 0
        else (Memory.lookup m b).getD (c.initialByte b) := by
  induction bs with
  | nil =>
    intro m a b
    have : ¬ (a ≤ b ∧ b < a) := by omega
    simp [Memory.writeBytes, this]
  | cons v bs ih =>
    intro m a b
    simp only [Memory.writeBytes, ih, lookup_write, List.length_cons]
    by_cases hb : b = a
    · subst hb; simp
    · by_cases hin : a + 1 ≤ b ∧ b < a + 1 + bs.length
      · have h1 : a ≤ b ∧ b < a + (bs.length + 1) := by omega
        have h2 : b - a = (b - (a + 1)) + 1 := by omega
        rw [if_pos hin, if_pos h1, h2, List.getD_cons_succ]
      · have h1 : ¬ (a ≤ b ∧ b < a + (bs.length + 1)) := by omega
        rw [if_neg hin, if_neg h1, if_neg hb]

/-- What a byte reads as after a store of several: the stored byte inside the range, the old byte outside. -/
theorem readByte_storeBytes (s : State) (a b : Nat) (bs : List Byte) :
    (s.storeBytes a bs).readByte b =
      if a ≤ b ∧ b < a + bs.length then bs.getD (b - a) 0 else s.readByte b :=
  lookup_writeBytes s.config bs s.mem a b

/-! ### The access primitives -/

/-- All that `MemRead` can answer (R73). -/
theorem memRead_cases (s : State) (a n : Nat) :
    (n = 0 ∨ a + n ≤ memSize) ∧ s.memRead a n = .ok ((List.range n).map fun k => s.readByte (a + k)) ∨
    n ≠ 0 ∧ memSize < a + n ∧ s.memRead a n = .error (.memRange a) := by
  unfold State.memRead
  by_cases hn : n = 0
  · subst hn; exact .inl ⟨.inl rfl, by simp⟩
  · by_cases hr : a + n > memSize
    · exact .inr ⟨hn, hr, by rw [if_neg hn, if_pos hr]⟩
    · exact .inl ⟨.inr (by omega), by rw [if_neg hn, if_neg hr]⟩

/-- All that `MemWrite` can answer (R74). -/
theorem memWrite_cases (s : State) (a : Nat) (bs : List Byte) :
    (bs.length = 0 ∨ a + bs.length ≤ memSize) ∧ s.memWrite a bs = .ok (s.storeBytes a bs) ∨
    bs.length ≠ 0 ∧ memSize < a + bs.length ∧ s.memWrite a bs = .error (.memRange a) := by
  unfold State.memWrite
  by_cases hn : bs.length = 0
  · have : bs = [] := List.length_eq_zero_iff.mp hn
    subst this; exact .inl ⟨.inl rfl, rfl⟩
  · by_cases hr : a + bs.length > memSize
    · exact .inr ⟨hn, hr, by rw [if_neg hn, if_pos hr]⟩
    · exact .inl ⟨.inr (by omega), by rw [if_neg hn, if_neg hr]⟩

theorem memRead_ok {s : State} {a n : Nat} (h : n = 0 ∨ a + n ≤ memSize) :
    s.memRead a n = .ok ((List.range n).map fun k => s.readByte (a + k)) := by
  rcases memRead_cases s a n with h' | ⟨h1, h2, _⟩
  · exact h'.2
  · omega

theorem memRead_error {s : State} {a n : Nat} (hn : n ≠ 0) (h : memSize < a + n) :
    s.memRead a n = .error (.memRange a) := by
  rcases memRead_cases s a n with ⟨h1, _⟩ | h'
  · omega
  · exact h'.2.2

theorem memWrite_ok {s : State} {a : Nat} {bs : List Byte} (h : bs.length = 0 ∨ a + bs.length ≤ memSize) :
    s.memWrite a bs = .ok (s.storeBytes a bs) := by
  rcases memWrite_cases s a bs with h' | ⟨h1, h2, _⟩
  · exact h'.2
  · omega

theorem memWrite_error {s : State} {a : Nat} {bs : List Byte} (hn : bs.length ≠ 0)
    (h : memSize < a + bs.length) : s.memWrite a bs = .error (.memRange a) := by
  rcases memWrite_cases s a bs with ⟨h1, _⟩ | h'
  · omega
  · exact h'.2.2

/-- Two bytes as memory holds them make the word with the first one high (R78). -/
theorem bigEndian_pair (hi lo : Byte) : bigEndian [hi, lo] = hi ++ lo := by
  apply BitVec.eq_of_getLsbD_eq
  intro k hk
  have happ : (hi ++ lo : Word).getLsbD k = if k < 8 then lo.getLsbD k else hi.getLsbD (k - 8) :=
    BitVec.getLsbD_append
  rw [happ]
  simp only [bigEndian, List.foldl_cons, List.foldl_nil, BitVec.getLsbD_or, BitVec.getLsbD_shiftLeft,
    BitVec.getLsbD_setWidth]
  by_cases h8 : k < 8
  · simp [h8, hk]
  · have : lo.getLsbD k = false := BitVec.getLsbD_of_ge lo k (by omega)
    have hk' : k - 8 < 16 := by omega
    simp [h8, this, hk, hk']

end Sys2Proof.Machine
end

