-- ==== Sys2Proof/Laws/Registers.lean ====
section
/-! SUPPORT. Registers: what each reads as after a write of one or of a block, and what the flagged operations
of the 8-family leave. -/

namespace Sys2Proof.Machine

theorem reg_setReg (s : State) (r q : Reg) (b : Byte) :
    (s.setReg r b).reg q = if q = r then b else s.reg q := by
  by_cases h : q = r
  · subst h; simp [State.reg, State.setReg]
  · have : (r : Nat) ≠ q := fun h' => h (Fin.ext h'.symm)
    simp [State.reg, State.setReg, h, this]

@[simp] theorem reg_setReg_self (s : State) (r : Reg) (b : Byte) : (s.setReg r b).reg r = b := by
  simp [reg_setReg]

theorem reg_setReg_ne (s : State) {r q : Reg} (b : Byte) (h : q ≠ r) : (s.setReg r b).reg q = s.reg q := by
  simp [reg_setReg, h]

theorem getElem_writeRegs (bs : List Byte) :
    ∀ (v : Vector Byte nreg) (k : Nat) (q : Reg),
      (writeRegs v k bs)[q] = if k ≤ q.val ∧ q.val < k + bs.length then bs.getD (q.val - k) 0 else v[q] := by
  induction bs with
  | nil =>
    intro v k q
    have : ¬ (k ≤ q.val ∧ q.val < k) := by omega
    simp [writeRegs, this]
  | cons b bs ih =>
    intro v k q
    simp only [writeRegs, ih, List.length_cons]
    by_cases hq : q.val = k
    · have h1 : ¬ (k + 1 ≤ q.val ∧ q.val < k + 1 + bs.length) := by omega
      have h2 : k ≤ q.val ∧ q.val < k + (bs.length + 1) := by omega
      rw [if_neg h1, if_pos h2]
      simp [hq]
    · by_cases hin : k + 1 ≤ q.val ∧ q.val < k + 1 + bs.length
      · have h1 : k ≤ q.val ∧ q.val < k + (bs.length + 1) := by omega
        have h2 : q.val - k = (q.val - (k + 1)) + 1 := by omega
        rw [if_pos hin, if_pos h1, h2, List.getD_cons_succ]
      · have h1 : ¬ (k ≤ q.val ∧ q.val < k + (bs.length + 1)) := by omega
        rw [if_neg hin, if_neg h1]
        simp [Ne.symm hq]

/-- A register after a block load: the byte of its index, or the old value past the block. -/
theorem reg_setRegs (s : State) (bs : List Byte) (q : Reg) :
    (s.setRegs bs).reg q = if q.val < bs.length then bs.getD q.val 0 else s.reg q := by
  simpa [State.reg, State.setRegs] using getElem_writeRegs bs s.v 0 q

theorem length_regBlock (s : State) (x : Reg) : (s.regBlock x).length = x.val + 1 := by
  simp [State.regBlock, blockSize]

/-- The block's byte of index `k` is `V[k]`. -/
theorem getD_regBlock (s : State) (x q : Reg) (h : q.val ≤ x.val) : (s.regBlock x).getD q.val 0 = s.reg q := by
  have hq : q.val < (s.v.toList.take (x.val + 1)).length := by simp; omega
  simp only [State.regBlock, blockSize, List.getD_eq_getElem?_getD, List.getElem?_eq_getElem hq,
    Option.getD_some, List.getElem_take, State.reg]
  simp

/-! ### The flagged operations (R203) -/

@[simp] theorem flagThenResult_eq (s : State) (f : Byte) (x : Reg) (g : State → Byte) :
    s.flagThenResult f x g = (s.setReg VF f).setReg x (g (s.setReg VF f)) := rfl

end Sys2Proof.Machine
end

