-- ==== Sys2Proof/Laws/Exec.lean ====
section
/-! SUPPORT. What the shared operations can answer, and, for every instruction at once, the state it completes in:
later proofs cite `exec_next` and never unfold a meaning. -/

namespace Sys2Proof.Machine

/-! ### The shared operations -/

theorem guardAlias_pass {s : State} {a : Bool} {w : Word} {k : Result}
    (h : ¬ (s.config.vfAliasPolicy = .fault ∧ a = true)) : guardAlias s a w k = k := if_neg h

theorem guardAlias_refuse {s : State} {a : Bool} {w : Word} {k : Result}
    (h : s.config.vfAliasPolicy = .fault ∧ a = true) : guardAlias s a w k = .fault (.aliasUnsettled w) :=
  if_pos h

theorem guardAlias_next {s t : State} {a : Bool} {w : Word} {k : Result} (h : guardAlias s a w k = .next t) :
    ¬ (s.config.vfAliasPolicy = .fault ∧ a = true) ∧ k = .next t := by
  by_cases hp : s.config.vfAliasPolicy = .fault ∧ a = true
  · rw [guardAlias_refuse hp] at h; cases h
  · rw [guardAlias_pass hp] at h; exact ⟨hp, h⟩

theorem guardAlias_fault {s : State} {a : Bool} {w : Word} {k : Result} {f : Fault}
    (h : guardAlias s a w k = .fault f) :
    (s.config.vfAliasPolicy = .fault ∧ a = true ∧ f = .aliasUnsettled w) ∨ k = .fault f := by
  by_cases hp : s.config.vfAliasPolicy = .fault ∧ a = true
  · rw [guardAlias_refuse hp] at h; cases h; exact .inl ⟨hp.1, hp.2, rfl⟩
  · rw [guardAlias_pass hp] at h; exact .inr h

theorem afterRead_next {r : Except Fault (List Byte)} {k : List Byte → Result} {t : State}
    (h : afterRead r k = .next t) : ∃ bytes, r = .ok bytes ∧ k bytes = .next t := by
  cases r with
  | ok bytes => exact ⟨bytes, rfl, h⟩
  | error f => cases h

theorem afterRead_fault {r : Except Fault (List Byte)} {k : List Byte → Result} {f : Fault}
    (h : afterRead r k = .fault f) : r = .error f ∨ ∃ bytes, r = .ok bytes ∧ k bytes = .fault f := by
  cases r with
  | ok bytes => exact .inr ⟨bytes, rfl, h⟩
  | error g => cases h; exact .inl rfl

theorem afterWrite_next {r : Except Fault State} {k : State → Result} {t : State}
    (h : afterWrite r k = .next t) : ∃ u, r = .ok u ∧ k u = .next t := by
  cases r with
  | ok u => exact ⟨u, rfl, h⟩
  | error f => cases h

theorem afterWrite_fault {r : Except Fault State} {k : State → Result} {f : Fault}
    (h : afterWrite r k = .fault f) : r = .error f ∨ ∃ u, r = .ok u ∧ k u = .fault f := by
  cases r with
  | ok u => exact .inr ⟨u, rfl, h⟩
  | error g => cases h; exact .inl rfl

theorem length_decimalDigits (b : Byte) : (decimalDigits b).length = 3 := rfl

/-! ### The draw -/

@[simp] theorem drawSprite_pc (s : State) (px py : Nat) (rows : List Byte) :
    (s.drawSprite px py rows).pc = s.pc := rfl
@[simp] theorem drawSprite_i (s : State) (px py : Nat) (rows : List Byte) :
    (s.drawSprite px py rows).i = s.i := rfl
@[simp] theorem drawSprite_stack (s : State) (px py : Nat) (rows : List Byte) :
    (s.drawSprite px py rows).stack = s.stack := rfl
@[simp] theorem drawSprite_delay (s : State) (px py : Nat) (rows : List Byte) :
    (s.drawSprite px py rows).delay = s.delay := rfl
@[simp] theorem drawSprite_sound (s : State) (px py : Nat) (rows : List Byte) :
    (s.drawSprite px py rows).sound = s.sound := rfl
@[simp] theorem drawSprite_mode (s : State) (px py : Nat) (rows : List Byte) :
    (s.drawSprite px py rows).mode = s.mode := rfl
@[simp] theorem drawSprite_dirty (s : State) (px py : Nat) (rows : List Byte) :
    (s.drawSprite px py rows).dirty = true := rfl
@[simp] theorem drawSprite_isPressed (s : State) (px py : Nat) (rows : List Byte) (k : Key) :
    (s.drawSprite px py rows).isPressed k = s.isPressed k := rfl
@[simp] theorem drawSprite_mem (s : State) (px py : Nat) (rows : List Byte) :
    (s.drawSprite px py rows).mem = s.mem := rfl
@[simp] theorem drawSprite_readByte (s : State) (px py : Nat) (rows : List Byte) (a : Nat) :
    (s.drawSprite px py rows).readByte a = s.readByte a := rfl
@[simp] theorem drawSprite_faulted (s : State) (px py : Nat) (rows : List Byte) :
    (s.drawSprite px py rows).faulted = s.faulted := rfl
@[simp] theorem drawSprite_config (s : State) (px py : Nat) (rows : List Byte) :
    (s.drawSprite px py rows).config = s.config := rfl
@[simp] theorem drawSprite_draws (s : State) (px py : Nat) (rows : List Byte) :
    (s.drawSprite px py rows).draws = s.draws := rfl

theorem drawSprite_reg (s : State) (px py : Nat) (rows : List Byte) (q : Reg) :
    (s.drawSprite px py rows).reg q =
      if q = VF then flagByte (plotRows px py rows { fb := s.fb, hit := false }).hit else s.reg q :=
  reg_setReg _ _ _ _

/-- Every pixel after a draw (R261, R262). -/
theorem drawSprite_pixel (s : State) (px py : Nat) (rows : List Byte) (x : Col) (y : Row) :
    (s.drawSprite px py rows).pixel x y = (s.pixel x y ^^ spriteLit rows px py x.val y.val) :=
  (plotRows_spec px rows py { fb := s.fb, hit := false }).1 x y

/-- Whether a draw collides (R263). -/
theorem drawSprite_hit (s : State) (px py : Nat) (rows : List Byte) :
    (plotRows px py rows { fb := s.fb, hit := false }).hit = true ↔
      ∃ (x : Col) (y : Row), spriteLit rows px py x.val y.val = true ∧ s.pixel x y = true := by
  have h := (plotRows_spec px rows py { fb := s.fb, hit := false }).2
  simpa [LitOnWhite, State.pixel] using h

/-! ### Every instruction at once -/

/-- The state an instruction completes in, with the conditions under which it does. -/
def Completes (s t : State) : Instr → Prop
  | .cls => t = s.clearFrame.markDirty.advance
  | .ret => ∃ top rest, s.stack = top :: rest ∧ t = (s.setStack rest).jumpTo (top + 2)
  | .jp nnn => t = s.jumpTo (addressOperand nnn)
  | .call nnn => s.stackFull = false ∧ t = (s.push s.pc).jumpTo (addressOperand nnn)
  | .seXKK x kk => t = s.skipIf (s.reg x == kk)
  | .sneXKK x kk => t = s.skipIf (s.reg x != kk)
  | .seXY x y => t = s.skipIf (s.reg x == s.reg y)
  | .ldXKK x kk => t = (s.setReg x kk).advance
  | .addXKK x kk => t = (s.setReg x (s.reg x + kk)).advance
  | .ldXY x y => t = (s.setReg x (s.reg y)).advance
  | .orXY x y => t = (s.setReg x (s.reg x ||| s.reg y)).advance
  | .andXY x y => t = (s.setReg x (s.reg x &&& s.reg y)).advance
  | .xorXY x y => t = (s.setReg x (s.reg x ^^^ s.reg y)).advance
  | .addXY x y =>
    t = (s.flagThenResult (carryFlag (s.reg x) (s.reg y)) x fun u => u.reg x + u.reg y).advance
  | .subXY x y =>
    t = (s.flagThenResult (noBorrowFlag (s.reg x) (s.reg y)) x fun u => u.reg x - u.reg y).advance
  | .shr x _ => t = (s.flagThenResult (lowBitFlag (s.reg x)) x fun u => u.reg x >>> 1).advance
  | .subnXY x y =>
    t = (s.flagThenResult (noBorrowFlag (s.reg y) (s.reg x)) x fun u => u.reg y - u.reg x).advance
  | .shl x _ => t = (s.flagThenResult (highBitFlag (s.reg x)) x fun u => u.reg x <<< 1).advance
  | .sneXY x y => t = s.skipIf (s.reg x != s.reg y)
  | .ldI nnn => t = (s.setI (addressOperand nnn)).advance
  | .jpV0 nnn => t = s.jumpTo (addressOperand nnn + (s.reg 0).setWidth 16)
  | .rnd x kk => t = (s.afterDraw.setReg x (s.drawnByte &&& kk)).advance
  | .drw x y n => (n.val = 0 ∨ s.i.toNat + n.val ≤ memSize) ∧
    t = (s.drawSprite (s.reg x).toNat (s.reg y).toNat (s.spriteRows n)).advance
  | .skp x => t = s.skipIf (s.isPressed (s.keyOperand x))
  | .sknp x => t = s.skipIf (!s.isPressed (s.keyOperand x))
  | .ldXDT x => t = (s.setReg x s.delay).advance
  | .ldXK x => (s.lowestPressed = none ∧ t = s.setMode .waitingForKey) ∨
    ∃ k, s.lowestPressed = some k ∧ t = ((s.setReg x (BitVec.ofNat 8 k.val)).setMode .running).advance
  | .ldDTX x => t = (s.setDelay (s.reg x)).advance
  | .ldSTX x => t = (s.setSound (s.reg x)).advance
  | .addIX x => t = ((s.setI (BitVec.ofNat 16 (indexSum s.i (s.reg x)))).setReg VF
      (indexRangeFlag s.i (s.reg x))).advance
  | .ldFX x => t = (s.setI (glyphAddress (s.reg x))).advance
  | .ldBX x => s.i.toNat + 3 ≤ memSize ∧ t = (s.storeBytes s.i.toNat (decimalDigits (s.reg x))).advance
  | .ldMemX x => s.i.toNat + (x.val + 1) ≤ memSize ∧
    t = ((s.storeBytes s.i.toNat (s.regBlock x)).setI (s.indexPastBlock x)).advance
  | .ldXMem x => s.i.toNat + (x.val + 1) ≤ memSize ∧
    t = ((s.setRegs ((List.range (x.val + 1)).map fun k => s.readByte (s.i.toNat + k))).setI
      (s.indexPastBlock x)).advance
  | .nopUnmatched _ => t = s.advance

/-- What every instruction can complete in. -/
theorem exec_next {i : Instr} {s t : State} (h : exec i s = .next t) : Completes s t i := by
  cases i with
  | ret =>
    simp only [exec, execRet] at h
    cases hs : s.stack with
    | nil => rw [hs] at h; cases h
    | cons top rest => rw [hs] at h; cases h; exact ⟨top, rest, hs, rfl⟩
  | call nnn =>
    simp only [exec, execCall] at h
    cases hs : s.stackFull with
    | true => rw [hs] at h; cases h
    | false => rw [hs] at h; cases h; exact ⟨hs, rfl⟩
  | addXY x y => exact (Host.Outcome.next.inj (guardAlias_next h).2).symm
  | subXY x y => exact (Host.Outcome.next.inj (guardAlias_next h).2).symm
  | shr x y => exact (Host.Outcome.next.inj (guardAlias_next h).2).symm
  | subnXY x y => exact (Host.Outcome.next.inj (guardAlias_next h).2).symm
  | shl x y => exact (Host.Outcome.next.inj (guardAlias_next h).2).symm
  | addIX x => exact (Host.Outcome.next.inj (guardAlias_next h).2).symm
  | drw x y n =>
    obtain ⟨bytes, hr, hk⟩ := afterRead_next (guardAlias_next h).2
    rcases memRead_cases s s.dataAddress n.val with ⟨hin, hok⟩ | ⟨_, _, herr⟩
    · rw [hok] at hr; cases hr; cases hk; exact ⟨hin, rfl⟩
    · rw [herr] at hr; cases hr
  | ldXK x =>
    simp only [exec, execLdXK] at h
    cases hk : s.lowestPressed with
    | none => rw [hk] at h; cases h; exact .inl ⟨hk, rfl⟩
    | some k => rw [hk] at h; cases h; exact .inr ⟨k, hk, rfl⟩
  | ldBX x =>
    obtain ⟨u, hw, hk⟩ := afterWrite_next h
    rcases memWrite_cases s s.dataAddress (decimalDigits (s.reg x)) with ⟨hin, hok⟩ | ⟨_, _, herr⟩
    · rw [hok] at hw; cases hw; cases hk
      rw [length_decimalDigits] at hin
      exact ⟨by rcases hin with h0 | h0 <;> [cases h0; exact h0], rfl⟩
    · rw [herr] at hw; cases hw
  | ldMemX x =>
    obtain ⟨u, hw, hk⟩ := afterWrite_next h
    rcases memWrite_cases s s.dataAddress (s.regBlock x) with ⟨hin, hok⟩ | ⟨_, _, herr⟩
    · rw [hok] at hw; cases hw; cases hk
      rw [length_regBlock] at hin
      exact ⟨by rcases hin with h0 | h0 <;> [cases h0; exact h0], rfl⟩
    · rw [herr] at hw; cases hw
  | ldXMem x =>
    obtain ⟨bytes, hr, hk⟩ := afterRead_next h
    rcases memRead_cases s s.dataAddress (blockSize x) with ⟨hin, hok⟩ | ⟨_, _, herr⟩
    · rw [hok] at hr; cases hr; cases hk
      exact ⟨by rcases hin with h0 | h0 <;> [cases h0; exact h0], rfl⟩
    · rw [herr] at hr; cases hr
  | _ => cases h; rfl

/-- Where an instruction's fault comes from. -/
def FaultsBy (s : State) (i : Instr) (f : Fault) : Prop :=
  (s.config.vfAliasPolicy = .fault ∧ i.namesFlag = true ∧ f = .aliasUnsettled (encode i)) ∨
  (∃ nnn, i = .call nnn ∧ s.stackFull = true ∧ f = .stackOverflow s.pc) ∨
  (i = .ret ∧ s.stack = [] ∧ f = .stackUnderflow s.pc) ∨
  (f = .memRange s.i.toNat ∧ i.dataBytes ≠ 0 ∧ memSize < s.i.toNat + i.dataBytes)

/-- `stackFull` names the bound it has reached. -/
theorem stackFull_depth {s : State} (h : s.stackFull = true) :
    ∃ d, s.config.stackDepth = some d ∧ d ≤ s.stack.length := by
  unfold State.stackFull at h
  split at h
  · exact ⟨_, ‹_›, of_decide_eq_true h⟩
  · cases h

theorem memRead_fault {s : State} {a n : Nat} {f : Fault} (h : s.memRead a n = .error f) :
    f = .memRange a ∧ n ≠ 0 ∧ memSize < a + n := by
  unfold State.memRead at h
  split at h
  · cases h
  · split at h
    · cases h; exact ⟨rfl, ‹_›, ‹_›⟩
    · cases h

theorem memWrite_fault {s : State} {a : Nat} {bs : List Byte} {f : Fault}
    (h : s.memWrite a bs = .error f) : f = .memRange a ∧ bs.length ≠ 0 ∧ memSize < a + bs.length := by
  unfold State.memWrite at h
  split at h
  · cases h
  · split at h
    · cases h; exact ⟨rfl, ‹_›, ‹_›⟩
    · cases h

theorem exec_fault {i : Instr} {s : State} {f : Fault} (h : exec i s = .fault f) : FaultsBy s i f := by
  cases i with
  | ret =>
    simp only [exec, execRet] at h
    cases hs : s.stack with
    | nil => rw [hs] at h; cases h; exact .inr (.inr (.inl ⟨rfl, hs, rfl⟩))
    | cons top rest => rw [hs] at h; cases h
  | call nnn =>
    simp only [exec, execCall] at h
    cases hs : s.stackFull with
    | true => rw [hs] at h; cases h; exact .inr (.inl ⟨nnn, rfl, hs, rfl⟩)
    | false => rw [hs] at h; cases h
  | addXY x y =>
    rcases guardAlias_fault h with ⟨hp, ha, hf⟩ | hk
    · exact .inl ⟨hp, by simpa [Instr.namesFlag] using ha, hf⟩
    · cases hk
  | subXY x y =>
    rcases guardAlias_fault h with ⟨hp, ha, hf⟩ | hk
    · exact .inl ⟨hp, by simpa [Instr.namesFlag] using ha, hf⟩
    · cases hk
  | subnXY x y =>
    rcases guardAlias_fault h with ⟨hp, ha, hf⟩ | hk
    · exact .inl ⟨hp, by simpa [Instr.namesFlag] using ha, hf⟩
    · cases hk
  | shr x y =>
    rcases guardAlias_fault h with ⟨hp, ha, hf⟩ | hk
    · exact .inl ⟨hp, by simpa [Instr.namesFlag] using ha, hf⟩
    · cases hk
  | shl x y =>
    rcases guardAlias_fault h with ⟨hp, ha, hf⟩ | hk
    · exact .inl ⟨hp, by simpa [Instr.namesFlag] using ha, hf⟩
    · cases hk
  | addIX x =>
    rcases guardAlias_fault h with ⟨hp, ha, hf⟩ | hk
    · exact .inl ⟨hp, by simpa [Instr.namesFlag] using ha, hf⟩
    · cases hk
  | drw x y n =>
    rcases guardAlias_fault h with ⟨hp, ha, hf⟩ | hk
    · exact .inl ⟨hp, by simpa [Instr.namesFlag] using ha, hf⟩
    · rcases afterRead_fault hk with he | ⟨_, _, he⟩
      · exact .inr (.inr (.inr (memRead_fault he)))
      · cases he
  | ldXK x =>
    simp only [exec, execLdXK] at h
    cases hk : s.lowestPressed <;> rw [hk] at h <;> cases h
  | ldBX x =>
    rcases afterWrite_fault h with he | ⟨_, _, he⟩
    · exact .inr (.inr (.inr (memWrite_fault he)))
    · cases he
  | ldMemX x =>
    rcases afterWrite_fault h with he | ⟨_, _, he⟩
    · have := memWrite_fault he
      rw [length_regBlock] at this
      exact .inr (.inr (.inr this))
    · cases he
  | ldXMem x =>
    rcases afterRead_fault h with he | ⟨_, _, he⟩
    · exact .inr (.inr (.inr (memRead_fault he)))
    · cases he
  | _ => cases h

end Sys2Proof.Machine
end

