-- ==== Sys2Proof/Laws/PerInstr.lean ====
section
/-! SUPPORT. A fact about every instruction as syntax, proved constructor by constructor: its word lies in its
row of the opcode map (R105, R110). -/

namespace Sys2Proof.Laws.EncodedInRow

/-- The word of an instruction matches the row of its mnemonic, if it is one of the 34 operations. -/
def Statement (i : Instr) : Prop :=
  ∀ r ∈ opcodeRows, r.mnemonic = i.mnemonic → r.matchesWord (encode i) = true

/-- The one row of a mnemonic decides the statement. -/
theorem of_row {i : Instr} (name : String) (mask value : Word) (hname : i.mnemonic = name)
    (hrow : ∀ r ∈ opcodeRows, r.mnemonic = name → r.mask = mask ∧ r.value = value)
    (h : encode i &&& mask = value) : Statement i := by
  intro r hr hm
  obtain ⟨h1, h2⟩ := hrow r hr (hm.trans hname)
  simp [OpcodeRow.matchesWord, h1, h2, h]

theorem cls : Statement (.cls) :=
  of_row "CLS" 0xF0FF 0x00E0 rfl (by decide) (by decide)
theorem ret : Statement (.ret) :=
  of_row "RET" 0xF0FF 0x00EE rfl (by decide) (by decide)
theorem jp (nnn : Addr12) : Statement (.jp nnn) :=
  of_row "JP_nnn" 0xF000 0x1000 rfl (by decide) ((wordNNN_maskTop _ _).trans (by decide))
theorem call (nnn : Addr12) : Statement (.call nnn) :=
  of_row "CALL_nnn" 0xF000 0x2000 rfl (by decide) ((wordNNN_maskTop _ _).trans (by decide))
theorem seXKK (x : Reg) (kk : Byte) : Statement (.seXKK x kk) :=
  of_row "SE_Vx__kk" 0xF000 0x3000 rfl (by decide) ((wordXKK_maskTop _ _ _).trans (by decide))
theorem sneXKK (x : Reg) (kk : Byte) : Statement (.sneXKK x kk) :=
  of_row "SNE_Vx__kk" 0xF000 0x4000 rfl (by decide) ((wordXKK_maskTop _ _ _).trans (by decide))
theorem seXY (x y : Reg) : Statement (.seXY x y) :=
  of_row "SE_Vx__Vy" 0xF000 0x5000 rfl (by decide) ((wordXYN_maskTop _ _ _ _).trans (by decide))
theorem ldXKK (x : Reg) (kk : Byte) : Statement (.ldXKK x kk) :=
  of_row "LD_Vx__kk" 0xF000 0x6000 rfl (by decide) ((wordXKK_maskTop _ _ _).trans (by decide))
theorem addXKK (x : Reg) (kk : Byte) : Statement (.addXKK x kk) :=
  of_row "ADD_Vx__kk" 0xF000 0x7000 rfl (by decide) ((wordXKK_maskTop _ _ _).trans (by decide))
theorem ldXY (x y : Reg) : Statement (.ldXY x y) :=
  of_row "LD_Vx__Vy" 0xF00F 0x8000 rfl (by decide) ((wordXYN_maskTopNibble _ _ _ _).trans (by decide))
theorem orXY (x y : Reg) : Statement (.orXY x y) :=
  of_row "OR_Vx__Vy" 0xF00F 0x8001 rfl (by decide) ((wordXYN_maskTopNibble _ _ _ _).trans (by decide))
theorem andXY (x y : Reg) : Statement (.andXY x y) :=
  of_row "AND_Vx__Vy" 0xF00F 0x8002 rfl (by decide) ((wordXYN_maskTopNibble _ _ _ _).trans (by decide))
theorem xorXY (x y : Reg) : Statement (.xorXY x y) :=
  of_row "XOR_Vx__Vy" 0xF00F 0x8003 rfl (by decide) ((wordXYN_maskTopNibble _ _ _ _).trans (by decide))
theorem addXY (x y : Reg) : Statement (.addXY x y) :=
  of_row "ADD_Vx__Vy" 0xF00F 0x8004 rfl (by decide) ((wordXYN_maskTopNibble _ _ _ _).trans (by decide))
theorem subXY (x y : Reg) : Statement (.subXY x y) :=
  of_row "SUB_Vx__Vy" 0xF00F 0x8005 rfl (by decide) ((wordXYN_maskTopNibble _ _ _ _).trans (by decide))
theorem shr (x y : Reg) : Statement (.shr x y) :=
  of_row "SHR_Vx" 0xF00F 0x8006 rfl (by decide) ((wordXYN_maskTopNibble _ _ _ _).trans (by decide))
theorem subnXY (x y : Reg) : Statement (.subnXY x y) :=
  of_row "SUBN_Vx__Vy" 0xF00F 0x8007 rfl (by decide) ((wordXYN_maskTopNibble _ _ _ _).trans (by decide))
theorem shl (x y : Reg) : Statement (.shl x y) :=
  of_row "SHL_Vx" 0xF00F 0x800E rfl (by decide) ((wordXYN_maskTopNibble _ _ _ _).trans (by decide))
theorem sneXY (x y : Reg) : Statement (.sneXY x y) :=
  of_row "SNE_Vx__Vy" 0xF000 0x9000 rfl (by decide) ((wordXYN_maskTop _ _ _ _).trans (by decide))
theorem ldI (nnn : Addr12) : Statement (.ldI nnn) :=
  of_row "LD_I__nnn" 0xF000 0xA000 rfl (by decide) ((wordNNN_maskTop _ _).trans (by decide))
theorem jpV0 (nnn : Addr12) : Statement (.jpV0 nnn) :=
  of_row "JP_V0__nnn" 0xF000 0xB000 rfl (by decide) ((wordNNN_maskTop _ _).trans (by decide))
theorem rnd (x : Reg) (kk : Byte) : Statement (.rnd x kk) :=
  of_row "RND_Vx__kk" 0xF000 0xC000 rfl (by decide) ((wordXKK_maskTop _ _ _).trans (by decide))
theorem drw (x y : Reg) (n : Height) : Statement (.drw x y n) :=
  of_row "DRW_Vx__Vy__n" 0xF000 0xD000 rfl (by decide) ((wordXYN_maskTop _ _ _ _).trans (by decide))
theorem skp (x : Reg) : Statement (.skp x) :=
  of_row "SKP_Vx" 0xF0FF 0xE09E rfl (by decide) ((wordXKK_maskTopLow _ _ _).trans (by decide))
theorem sknp (x : Reg) : Statement (.sknp x) :=
  of_row "SKNP_Vx" 0xF0FF 0xE0A1 rfl (by decide) ((wordXKK_maskTopLow _ _ _).trans (by decide))
theorem ldXDT (x : Reg) : Statement (.ldXDT x) :=
  of_row "LD_Vx__DT" 0xF0FF 0xF007 rfl (by decide) ((wordXKK_maskTopLow _ _ _).trans (by decide))
theorem ldXK (x : Reg) : Statement (.ldXK x) :=
  of_row "LD_Vx__K" 0xF0FF 0xF00A rfl (by decide) ((wordXKK_maskTopLow _ _ _).trans (by decide))
theorem ldDTX (x : Reg) : Statement (.ldDTX x) :=
  of_row "LD_DT__Vx" 0xF0FF 0xF015 rfl (by decide) ((wordXKK_maskTopLow _ _ _).trans (by decide))
theorem ldSTX (x : Reg) : Statement (.ldSTX x) :=
  of_row "LD_ST__Vx" 0xF0FF 0xF018 rfl (by decide) ((wordXKK_maskTopLow _ _ _).trans (by decide))
theorem addIX (x : Reg) : Statement (.addIX x) :=
  of_row "ADD_I__Vx" 0xF0FF 0xF01E rfl (by decide) ((wordXKK_maskTopLow _ _ _).trans (by decide))
theorem ldFX (x : Reg) : Statement (.ldFX x) :=
  of_row "LD_F__Vx" 0xF0FF 0xF029 rfl (by decide) ((wordXKK_maskTopLow _ _ _).trans (by decide))
theorem ldBX (x : Reg) : Statement (.ldBX x) :=
  of_row "LD_B__Vx" 0xF0FF 0xF033 rfl (by decide) ((wordXKK_maskTopLow _ _ _).trans (by decide))
theorem ldMemX (x : Reg) : Statement (.ldMemX x) :=
  of_row "LD__I___Vx" 0xF0FF 0xF055 rfl (by decide) ((wordXKK_maskTopLow _ _ _).trans (by decide))
theorem ldXMem (x : Reg) : Statement (.ldXMem x) :=
  of_row "LD_Vx___I" 0xF0FF 0xF065 rfl (by decide) ((wordXKK_maskTopLow _ _ _).trans (by decide))
theorem nopUnmatched (w : Word) : Statement (.nopUnmatched w) := fun r hr hm => by
  have : ∀ r ∈ opcodeRows, r.mnemonic ≠ "NOP_UNMATCHED" := by decide
  exact absurd hm (this r hr)

end Sys2Proof.Laws.EncodedInRow
end

