-- ==== Sys2Proof/Laws/Runs.lean ====
section
/-! SUPPORT. What sequencing, a transaction's report and a run answer (R130, R147). -/

namespace Sys2Proof.Machine

@[simp] theorem andThen_next {α β : Type} (a : α) (k : α → Host.Outcome β Fault Refusal) :
    andThen (.next a) k = k a := rfl

@[simp] theorem andThen_fault {α β : Type} (f : Fault) (k : α → Host.Outcome β Fault Refusal) :
    andThen (.fault f) k = .fault f := rfl

@[simp] theorem andThen_refused {α β : Type} (e : Refusal) (k : α → Host.Outcome β Fault Refusal) :
    andThen (.refused e) k = .refused e := rfl

/-- A sequence answers next exactly through a next of its first part. -/
theorem andThen_eq_next {α β : Type} {r : Host.Outcome α Fault Refusal}
    {k : α → Host.Outcome β Fault Refusal} {b : β} :
    andThen r k = .next b ↔ ∃ a, r = .next a ∧ k a = .next b := by
  cases r <;> simp

/-- The state part of a report is the transaction's effect. -/
theorem transact_eq_report (t : Transaction) (s : State) :
    transact t s = andThen (report t s) fun r => .next r.state := by
  cases t with
  | update =>
    simp only [transact, report, step, updateState]
    cases update s <;> rfl
  | keyEvent e pressed => rfl
  | load p => rfl
  | reset => rfl

/-- A transaction that answers next has a report of the state it answers, with outputs exactly for `update`. -/
theorem report_of_transact {t : Transaction} {s u : State} (h : transact t s = .next u) :
    ∃ o, report t s = .next { state := u, outputs := o } ∧
      (t = .update → ∃ p, o = some p ∧ update s = .next (u, p)) ∧ (t ≠ .update → o = none) := by
  rw [transact_eq_report, andThen_eq_next] at h
  obtain ⟨r, hr, hu⟩ := h
  cases hu
  refine ⟨r.outputs, hr, ?_, ?_⟩
  · rintro rfl
    simp only [report, andThen_eq_next] at hr
    obtain ⟨p, hp, hr⟩ := hr
    cases hr
    exact ⟨p.2, rfl, hp⟩
  · intro hn
    cases t with
    | update => exact absurd rfl hn
    | keyEvent e pressed => cases hr; rfl
    | load p => cases hr; rfl
    | reset => cases hr; rfl

theorem runTransactions_cons (t : Transaction) (ts : List Transaction) (s : State) :
    runTransactions (t :: ts) s = andThen (transact t s) (runTransactions ts) := by
  simp only [runTransactions]
  cases transact t s <;> rfl

/-- A run in two parts. -/
theorem runTransactions_append (ts us : List Transaction) (s : State) :
    runTransactions (ts ++ us) s = andThen (runTransactions ts s) (runTransactions us) := by
  induction ts generalizing s with
  | nil => rfl
  | cons t ts ih =>
    rw [List.cons_append, runTransactions_cons, runTransactions_cons]
    cases transact t s <;> simp [ih]

/-- The reports of a run in two parts: the second starts where the first ends. -/
theorem reports_append (ts us : List Transaction) (s : State) :
    reports (ts ++ us) s = andThen (reports ts s) fun rs =>
      andThen (runTransactions ts s) fun t => andThen (reports us t) fun qs => .next (rs ++ qs) := by
  induction ts generalizing s with
  | nil => simp only [List.nil_append, reports, runTransactions, andThen_next]; cases reports us s <;> rfl
  | cons t ts ih =>
    simp only [List.cons_append, reports, runTransactions_cons, transact_eq_report]
    cases report t s with
    | next r =>
      simp only [andThen_next, ih]
      cases reports ts r.state with
      | next rs =>
        simp only [andThen_next]
        cases runTransactions ts r.state with
        | next u => simp only [andThen_next]; cases reports us u <;> rfl
        | fault f => rfl
        | refused e => rfl
      | fault f => rfl
      | refused e => rfl
    | fault f => rfl
    | refused e => rfl

@[simp] theorem runState_zero (inputs : Nat → Transaction) (s : State) : runState inputs s 0 = .next s := rfl

theorem runState_succ (inputs : Nat → Transaction) (s : State) (n : Nat) :
    runState inputs s (n + 1) = andThen (runState inputs s n) (transact (inputs n)) := rfl

end Sys2Proof.Machine
end

