-- ==== Sys2Proof/Laws/Step.lean ====
section
/-! SUPPORT. What fetch, the step and the update can answer, in terms of `exec`. -/

namespace Sys2Proof.Machine

/-! ### Fetch (R133) -/

theorem fetch_ok {s : State} (h : s.pc.toNat + 2 ≤ memSize) : s.fetch = .ok s.wordAtPc := by
  unfold State.fetch
  rw [memRead_ok (.inr h)]
  exact congrArg Except.ok (bigEndian_pair _ _)

theorem fetch_error {s : State} (h : memSize < s.pc.toNat + 2) :
    s.fetch = .error (.memRange s.pc.toNat) := by
  unfold State.fetch
  rw [memRead_error (by omega) h]

/-! ### The step (R132) -/

theorem runInstr_next {i : Instr} {s t : State} (h : runInstr i s = .next t) :
    ∃ u, exec i s = .next u ∧ t = u.settleMode i := by
  unfold runInstr at h
  cases hx : exec i s with
  | next u => rw [hx] at h; cases h; exact ⟨u, rfl, rfl⟩
  | fault f => rw [hx] at h; cases h
  | refused r => rw [hx] at h; cases h

theorem runInstr_fault {i : Instr} {s : State} {f : Fault} (h : runInstr i s = .fault f) :
    exec i s = .fault f := by
  unfold runInstr at h
  cases hx : exec i s with
  | next u => rw [hx] at h; cases h
  | fault g => rw [hx] at h; cases h; rfl
  | refused r => rw [hx] at h; cases h

/-- All that a step can be: a fetch fault, a refusal of strict decoding, or the execution of the word at `PC`. -/
theorem instructionStep_cases (s : State) :
    (memSize < s.pc.toNat + 2 ∧ instructionStep s = .fault (.memRange s.pc.toNat)) ∨
    (s.pc.toNat + 2 ≤ memSize ∧ (s.config.strictDecode = true ∧ unsettledWord s.wordAtPc = true) ∧
      instructionStep s = .fault (.decodeUnsettled s.wordAtPc)) ∨
    (s.pc.toNat + 2 ≤ memSize ∧ ¬ (s.config.strictDecode = true ∧ unsettledWord s.wordAtPc = true) ∧
      instructionStep s = runInstr (decodeWord s.wordAtPc) s) := by
  unfold instructionStep
  by_cases hf : s.pc.toNat + 2 ≤ memSize
  · rw [fetch_ok hf]
    by_cases hs : s.config.strictDecode = true ∧ unsettledWord s.wordAtPc = true
    · exact .inr (.inl ⟨hf, hs, if_pos hs⟩)
    · exact .inr (.inr ⟨hf, hs, if_neg hs⟩)
  · have hf' : memSize < s.pc.toNat + 2 := by omega
    rw [fetch_error hf']
    exact .inl ⟨hf', rfl⟩

theorem instructionStep_executes {s : State} (h : s.Executes) :
    instructionStep s = runInstr (decodeWord s.wordAtPc) s := by
  rcases instructionStep_cases s with ⟨hf, _⟩ | ⟨_, hs, _⟩ | ⟨_, _, hr⟩
  · have := h.fetched; omega
  · exact absurd hs h.settled
  · exact hr

/-! ### The update (R131) -/

theorem update_faulted {s : State} {f : Fault} (h : s.faulted = some f) :
    update s = .next (s, s.quietOutputs) := by unfold update; rw [h]

theorem update_next {s t : State} (hl : s.live) (h : instructionStep s = .next t) :
    update s = .next (t.finishUpdate, t.stepOutputs) := by unfold update; rw [show s.faulted = none from hl, h]

theorem update_fault {s : State} {f : Fault} (hl : s.live) (h : instructionStep s = .fault f) :
    update s = .next (s.takeFault f, (s.takeFault f).quietOutputs) := by
  unfold update; rw [show s.faulted = none from hl, h]

theorem update_refused {s : State} {r : Refusal} (hl : s.live) (h : instructionStep s = .refused r) :
    update s = .refused r := by unfold update; rw [show s.faulted = none from hl, h]

theorem step_of_update {s t : State} {o : Outputs} (h : update s = .next (t, o)) : step s = .next t := by
  simp [step, updateState, h]

theorem step_refused {s : State} {r : Refusal} (h : update s = .refused r) : step s = .refused r := by
  simp [step, updateState, h]

theorem update_of_step {s t : State} (h : step s = .next t) : ∃ o, update s = .next (t, o) := by
  simp only [step, updateState] at h
  cases hu : update s with
  | next p => obtain ⟨u, o⟩ := p; rw [hu] at h; cases h; exact ⟨o, rfl⟩
  | fault f => rw [hu] at h; cases h
  | refused r => rw [hu] at h; cases h

/-- All that a step of the machine can answer next: the same state, if it was faulted; the state with a fault taken;
or the finished update of a completed instruction. -/
theorem step_cases {s t : State} (h : step s = .next t) :
    (∃ f, s.faulted = some f ∧ t = s) ∨
    (∃ f, s.live ∧ instructionStep s = .fault f ∧ t = s.takeFault f) ∨
    (∃ u, s.Executes ∧ exec (decodeWord s.wordAtPc) s = .next u ∧
      t = (u.settleMode (decodeWord s.wordAtPc)).finishUpdate) := by
  obtain ⟨o, hu⟩ := update_of_step h
  cases hf : s.faulted with
  | some f => rw [update_faulted hf] at hu; cases hu; exact .inl ⟨f, rfl, rfl⟩
  | none =>
    cases hi : instructionStep s with
    | fault f => rw [update_fault hf hi] at hu; cases hu; exact .inr (.inl ⟨f, hf, rfl, rfl⟩)
    | refused r => rw [update_refused hf hi] at hu; cases hu
    | next u =>
      rw [update_next hf hi] at hu; cases hu
      rcases instructionStep_cases s with ⟨_, he⟩ | ⟨_, _, he⟩ | ⟨h1, h2, he⟩
      · rw [he] at hi; cases hi
      · rw [he] at hi; cases hi
      · rw [he] at hi
        obtain ⟨v, hx, rfl⟩ := runInstr_next hi
        exact .inr (.inr ⟨v, ⟨hf, h1, h2⟩, hx, rfl⟩)

/-! ### Fields through the end of an update -/

@[simp] theorem settleMode_v (s : State) (i : Instr) : (s.settleMode i).v = s.v := by cases i <;> rfl
@[simp] theorem settleMode_pc (s : State) (i : Instr) : (s.settleMode i).pc = s.pc := by cases i <;> rfl
@[simp] theorem settleMode_i (s : State) (i : Instr) : (s.settleMode i).i = s.i := by cases i <;> rfl
@[simp] theorem settleMode_stack (s : State) (i : Instr) : (s.settleMode i).stack = s.stack := by
  cases i <;> rfl
@[simp] theorem settleMode_delay (s : State) (i : Instr) : (s.settleMode i).delay = s.delay := by
  cases i <;> rfl
@[simp] theorem settleMode_sound (s : State) (i : Instr) : (s.settleMode i).sound = s.sound := by
  cases i <;> rfl
@[simp] theorem settleMode_dirty (s : State) (i : Instr) : (s.settleMode i).dirty = s.dirty := by
  cases i <;> rfl
@[simp] theorem settleMode_keys (s : State) (i : Instr) : (s.settleMode i).keys = s.keys := by
  cases i <;> rfl
@[simp] theorem settleMode_fb (s : State) (i : Instr) : (s.settleMode i).fb = s.fb := by cases i <;> rfl
@[simp] theorem settleMode_mem (s : State) (i : Instr) : (s.settleMode i).mem = s.mem := by cases i <;> rfl
@[simp] theorem settleMode_faulted (s : State) (i : Instr) : (s.settleMode i).faulted = s.faulted := by
  cases i <;> rfl
@[simp] theorem settleMode_config (s : State) (i : Instr) : (s.settleMode i).config = s.config := by
  cases i <;> rfl
@[simp] theorem settleMode_draws (s : State) (i : Instr) : (s.settleMode i).draws = s.draws := by
  cases i <;> rfl
@[simp] theorem settleMode_reg (s : State) (i : Instr) (q : Reg) : (s.settleMode i).reg q = s.reg q := by
  cases i <;> rfl
@[simp] theorem settleMode_readByte (s : State) (i : Instr) (a : Nat) :
    (s.settleMode i).readByte a = s.readByte a := by cases i <;> rfl

/-- `mode` after the settling: what `LD Vx, K` wrote, else Running. -/
theorem settleMode_mode (s : State) (i : Instr) :
    (s.settleMode i).mode = s.mode ∧ (∃ x, i = .ldXK x) ∨
    (s.settleMode i).mode = .running ∧ ∀ x, i ≠ .ldXK x := by
  cases i <;> first | exact .inl ⟨rfl, _, rfl⟩ | exact .inr ⟨rfl, fun _ h => by cases h⟩

theorem finishUpdate_eq (s : State) : s.finishUpdate = s.timerTick.frameOut := rfl

theorem tickTimer_toNat (b : Byte) : (tickTimer b).toNat = b.toNat - 1 := by
  unfold tickTimer
  by_cases h : b = 0
  · simp [h]
  · rw [if_neg h]
    have : b.toNat ≠ 0 := fun h' => h (BitVec.eq_of_toNat_eq (by simpa using h'))
    rw [BitVec.toNat_sub]
    have := b.isLt
    simp
    omega

end Sys2Proof.Machine
end

