-- ==== Sys2Proof/Tests/Slice0.lean ====
section
/-! SUPPORT. Tests. The expected results are those of spec/95_test_vectors.md part L2 (the table is named at each
group) or of the rule named; the words are written from the patterns of spec/30_encoding.md R105. The last part
shows, for every statement with hypotheses, a concrete state that meets them. -/

namespace Sys2Proof.Tests

set_option Elab.async false

open Sys2Proof Sys2Proof.Machine

/-- The block after reset with one instruction word at `PC` = 0x200. -/
def at200 (w : Nat) : State := State.reset.withFetchWord 16 w

/-- The block after reset with other parameters and one instruction word at `PC`. -/
def builtWith (c : Config) (w : Nat) : State := (State.construct c).withFetchWord 16 w

/-- The parameters with `STRICT_DECODE = true`. -/
def strictConfig : Config := { Config.default with strictDecode := true }

/-- The parameters with `VF_ALIAS_POLICY = fault`. -/
def aliasConfig : Config := { Config.default with vfAliasPolicy := .fault }

/-- The step answers a state without a fault that passes the check. -/
def completes (s : State) (check : State → Bool) : Bool :=
  match step s with
  | .next t => t.faulted == none && check t
  | .fault _ => false
  | .refused _ => false

/-- The step answers exactly this state. -/
def becomes (s t : State) : Bool :=
  match step s with
  | .next u => decide (u = t)
  | .fault _ => false
  | .refused _ => false

/-- The step takes this fault and leaves everything else as it was. -/
def takes (s : State) (f : Fault) : Bool := becomes s (s.takeFault f)

/-- The update answers outputs and a state that pass the check. -/
def reports (s : State) (check : State → Outputs → Bool) : Bool :=
  match update s with
  | .next (t, o) => check t o
  | .fault _ => false
  | .refused _ => false

/-! ### Well-formed instructions (R104, R113) -/

theorem test_wf_refuses_a_matched_word : (Instr.nopUnmatched 0x6005).wf = false := by decide
theorem test_wf_refuses_cls_as_unmatched : (Instr.nopUnmatched 0x01E0).wf = false := by decide
theorem test_wf_admits_an_unmatched_word : (Instr.nopUnmatched 0x8008).wf = true := by decide

/-! ### Decoding, a word of every row (R105; the bits in the order `oooo xxxx yyyy nnnn`) -/

theorem test_decode_0_family :
    decodeWord 0b0000000011100000 = .cls ∧ decodeWord 0b0000000111100000 = .cls ∧
    decodeWord 0b0000000011101110 = .ret ∧
    decodeWord 0b0000000100100011 = .nopUnmatched 0x0123 := by decide
theorem test_decode_jumps :
    decodeWord 0b0001101010111100 = .jp 0xABC ∧ decodeWord 0b0010001100000000 = .call 0x300 ∧
    decodeWord 0b1011001100000001 = .jpV0 0x301 := by decide
theorem test_decode_skips :
    decodeWord 0b0011001100010010 = .seXKK 3 0x12 ∧ decodeWord 0b0100001100010011 = .sneXKK 3 0x13 ∧
    decodeWord 0b0101000100100000 = .seXY 1 2 ∧ decodeWord 0b0101000100100001 = .seXY 1 2 ∧
    decodeWord 0b1001000100100000 = .sneXY 1 2 := by decide
theorem test_decode_immediates :
    decodeWord 0b0110101001111111 = .ldXKK 10 0x7F ∧ decodeWord 0b0111000100000010 = .addXKK 1 2 ∧
    decodeWord 0b1010000100100011 = .ldI 0x123 ∧ decodeWord 0b1100001100001111 = .rnd 3 0x0F := by decide
theorem test_decode_8_family :
    decodeWord 0b1000000100100000 = .ldXY 1 2 ∧ decodeWord 0b1000000100100001 = .orXY 1 2 ∧
    decodeWord 0b1000000100100010 = .andXY 1 2 ∧ decodeWord 0b1000000100100011 = .xorXY 1 2 ∧
    decodeWord 0b1000000100100100 = .addXY 1 2 ∧ decodeWord 0b1000000100100101 = .subXY 1 2 ∧
    decodeWord 0b1000010001110110 = .shr 4 7 ∧ decodeWord 0b1000000100100111 = .subnXY 1 2 ∧
    decodeWord 0b1000010001111110 = .shl 4 7 ∧
    decodeWord 0b1000000000001000 = .nopUnmatched 0x8008 := by decide
theorem test_decode_draw : decodeWord 0b1101000100101111 = .drw 1 2 15 := by decide
theorem test_decode_E_family :
    decodeWord 0b1110001010011110 = .skp 2 ∧ decodeWord 0b1110001010100001 = .sknp 2 ∧
    decodeWord 0b1110000000000000 = .nopUnmatched 0xE000 := by decide
theorem test_decode_F_family :
    decodeWord 0b1111000100000111 = .ldXDT 1 ∧ decodeWord 0b1111000100001010 = .ldXK 1 ∧
    decodeWord 0b1111000100010101 = .ldDTX 1 ∧ decodeWord 0b1111000100011000 = .ldSTX 1 ∧
    decodeWord 0b1111000100011110 = .addIX 1 ∧ decodeWord 0b1111000100101001 = .ldFX 1 ∧
    decodeWord 0b1111000100110011 = .ldBX 1 ∧ decodeWord 0b1111000101010101 = .ldMemX 1 ∧
    decodeWord 0b1111000101100101 = .ldXMem 1 ∧
    decodeWord 0b1111000011111111 = .nopUnmatched 0xF0FF := by decide

/-- A row's word above its bits is zero, and the word decodes. -/
theorem test_decodeTableWord : decodeTableWord 16 0x8014 = some (.addXY 0 1) := by decide

/-! ### Fetch, strict decoding and the default arm (L2.1) -/

theorem test_fetch_is_big_endian : completes (at200 0x6005) (fun t => t.reg 0 == 5 && t.pc == 0x202) := by
  decide +kernel
theorem test_fetch_at_the_top_does_not_fault :
    completes ({ at200 0x6005 with pc := 0xFFE }.withFetchWord 16 0x6107) (fun t => t.reg 1 == 7) := by
  decide +kernel
theorem test_fetch_past_the_top_faults :
    takes { State.reset with pc := 0xFFF } (.memRange 0xFFF) := by decide +kernel
theorem test_strict_decode_refuses_01E0 :
    takes (builtWith strictConfig 0x01E0) (.decodeUnsettled 0x01E0) := by decide +kernel
theorem test_unmatched_only_advances :
    becomes (at200 0x8008) { at200 0x8008 with pc := 0x202 } = true := by decide +kernel

/-! ### Control transfer (L2.2) -/

theorem test_jp : completes (at200 0x1235) (fun t => t.pc == 0x235) := by decide +kernel
theorem test_call :
    completes (at200 0x2300) (fun t => t.stack == [0x200] && t.pc == 0x300) := by decide +kernel
theorem test_call_on_a_full_stack_faults :
    takes { at200 0x2300 with stack := List.replicate 16 0x250 } (.stackOverflow 0x200) := by decide +kernel
theorem test_ret :
    completes { at200 0x00EE with stack := [0x250] } (fun t => t.stack == [] && t.pc == 0x252) := by
  decide +kernel
theorem test_ret_on_an_empty_stack_faults : takes (at200 0x00EE) (.stackUnderflow 0x200) := by decide +kernel
theorem test_jpV0_is_not_masked :
    completes ((at200 0xBFFF).setReg 0 0xFF) (fun t => t.pc == 0x10FE) := by decide +kernel
theorem test_seXKK_equal : completes ((at200 0x3342).setReg 3 0x42) (fun t => t.pc == 0x204) := by
  decide +kernel
theorem test_seXKK_unequal : completes ((at200 0x3342).setReg 3 0x41) (fun t => t.pc == 0x202) := by
  decide +kernel
theorem test_sneXKK_equal : completes ((at200 0x4342).setReg 3 0x42) (fun t => t.pc == 0x202) := by
  decide +kernel
theorem test_sneXKK_unequal : completes ((at200 0x4342).setReg 3 0x41) (fun t => t.pc == 0x204) := by
  decide +kernel
theorem test_seXY_equal :
    completes (((at200 0x5120).setReg 1 7).setReg 2 7) (fun t => t.pc == 0x204) := by decide +kernel
theorem test_seXY_unequal :
    completes (((at200 0x5120).setReg 1 7).setReg 2 8) (fun t => t.pc == 0x202) := by decide +kernel
theorem test_sneXY_equal :
    completes (((at200 0x9120).setReg 1 7).setReg 2 7) (fun t => t.pc == 0x202) := by decide +kernel
theorem test_sneXY_unequal :
    completes (((at200 0x9120).setReg 1 7).setReg 2 8) (fun t => t.pc == 0x204) := by decide +kernel

/-! ### Immediates, copies and logic (L2.3) -/

theorem test_ldXKK_into_VF : completes (at200 0x6F01) (fun t => t.reg 15 == 1) := by decide +kernel
theorem test_addXKK_wraps_without_flag :
    completes (((at200 0x7102).setReg 1 0xFF).setReg 15 9) (fun t => t.reg 1 == 1 && t.reg 15 == 9) := by
  decide +kernel
theorem test_ldXY : completes ((at200 0x8120).setReg 2 0x9C) (fun t => t.reg 1 == 0x9C) := by decide +kernel
theorem test_orXY :
    completes ((((at200 0x8121).setReg 1 0xF0).setReg 2 0x0F).setReg 15 9)
      (fun t => t.reg 1 == 0xFF && t.reg 15 == 9) := by decide +kernel
theorem test_andXY :
    completes (((at200 0x8122).setReg 1 0xF0).setReg 2 0x3C) (fun t => t.reg 1 == 0x30) := by decide +kernel
theorem test_xorXY :
    completes (((at200 0x8123).setReg 1 0xFF).setReg 2 0x0F) (fun t => t.reg 1 == 0xF0) := by decide +kernel

/-! ### Flag arithmetic and shifts (L2.4) -/

theorem test_addXY_carry :
    completes (((at200 0x8014).setReg 0 0xFF).setReg 1 0x01) (fun t => t.reg 0 == 0 && t.reg 15 == 1) := by
  decide +kernel
theorem test_addXY_with_VF_as_Vx :
    completes (((at200 0x8F24).setReg 15 0xFF).setReg 2 0x02) (fun t => t.reg 15 == 3) := by decide +kernel
theorem test_addXY_alias_refused : takes (builtWith aliasConfig 0x8F24) (.aliasUnsettled 0x8F24) := by
  decide +kernel
theorem test_subXY_borrow :
    completes (((at200 0x8125).setReg 1 0x03).setReg 2 0x05) (fun t => t.reg 1 == 0xFE && t.reg 15 == 0) := by
  decide +kernel
theorem test_subXY_with_VF_as_Vy :
    completes (((at200 0x82F5).setReg 2 0x10).setReg 15 0x20) (fun t => t.reg 2 == 0x10 && t.reg 15 == 0) := by
  decide +kernel
theorem test_subnXY :
    completes (((at200 0x8127).setReg 1 0x03).setReg 2 0x05) (fun t => t.reg 1 == 2 && t.reg 15 == 1) := by
  decide +kernel
theorem test_subnXY_equal :
    completes (((at200 0x8127).setReg 1 9).setReg 2 9) (fun t => t.reg 1 == 0 && t.reg 15 == 1) := by
  decide +kernel
theorem test_shr_ignores_Vy :
    completes (((at200 0x8476).setReg 4 5).setReg 7 0xFF) (fun t => t.reg 4 == 2 && t.reg 15 == 1) := by
  decide +kernel
theorem test_shr_of_VF : completes ((at200 0x8F06).setReg 15 3) (fun t => t.reg 15 == 0) := by decide +kernel
theorem test_shl : completes ((at200 0x840E).setReg 4 0x81) (fun t => t.reg 4 == 2 && t.reg 15 == 1) := by
  decide +kernel
theorem test_shl_of_VF : completes ((at200 0x8F0E).setReg 15 0x80) (fun t => t.reg 15 == 2) := by
  decide +kernel

/-! ### Random (L2.5): for every draw -/

theorem test_rnd_mask_zero : ∃ t, exec (.rnd 3 0) State.reset = .next t ∧ t.reg 3 = 0 :=
  ⟨_, rfl, by simp [State.reg, State.setReg, State.advance, State.afterDraw]⟩
theorem test_rnd_takes_a_fresh_draw : ∃ t, exec (.rnd 3 0xFF) State.reset = .next t ∧ t.draws = 1 :=
  ⟨_, rfl, rfl⟩

/-! ### Index and memory (L2.6) -/

theorem test_ldI : completes (at200 0xA123) (fun t => t.i == 0x123) := by decide +kernel
theorem test_addIX_past_0xFFF :
    completes (((at200 0xF11E).setI 0xFFF).setReg 1 1) (fun t => t.i == 0x1000 && t.reg 15 == 1) := by
  decide +kernel
theorem test_addIX_of_VF :
    completes (((at200 0xFF1E).setI 0x100).setReg 15 5) (fun t => t.i == 0x105 && t.reg 15 == 0) := by
  decide +kernel
theorem test_ldFX_unmasked : completes ((at200 0xF129).setReg 1 0xFF) (fun t => t.i == 0x4FB) := by
  decide +kernel
theorem test_ldBX :
    completes (((at200 0xF033).setI 0x300).setReg 0 0xFE) (fun t =>
      t.readByte 0x300 == 2 && t.readByte 0x301 == 5 && t.readByte 0x302 == 4 && t.i == 0x300) := by
  decide +kernel
theorem test_ldBX_past_the_top_faults : takes ((at200 0xF033).setI 0xFFE) (.memRange 0xFFE) := by
  decide +kernel
theorem test_ldMemX :
    completes (((at200 0xF155).setI 0x202).setReg 1 0xE0) (fun t =>
      t.readByte 0x202 == 0 && t.readByte 0x203 == 0xE0 && t.i == 0x204) := by decide +kernel
theorem test_ldMemX_past_the_top_faults : takes ((at200 0xFF55).setI 0xFF1) (.memRange 0xFF1) := by
  decide +kernel
theorem test_ldXMem :
    completes (((at200 0xF265).setI 0x300).storeBytes 0x300 [2, 5, 4, 6]) (fun t =>
      t.reg 0 == 2 && t.reg 1 == 5 && t.reg 2 == 4 && t.reg 3 == 0 && t.i == 0x303) := by decide +kernel
theorem test_ldXMem_past_the_top_faults : takes ((at200 0xF165).setI 0xFFF) (.memRange 0xFFF) := by
  decide +kernel

/-! ### Display (L2.7) -/

/-- The frame with one White pixel. -/
def lit (s : State) (x : Col) (y : Row) : State := { s with fb := s.fb.setPixel x y true }

theorem test_cls :
    reports (lit (at200 0x00E0) 5 7) (fun t o => t.pixel 5 7 == false && o.present && !t.dirty) := by
  decide +kernel
theorem test_drw_last_column_collides :
    completes (((lit (at200 0xD011) 63 0).storeBytes 0x300 [0x81]).setI 0x300 |>.setReg 0 56) (fun t =>
      t.pixel 56 0 && !t.pixel 63 0 && t.reg 15 == 1) := by decide +kernel
theorem test_drw_clips :
    completes (((lit (at200 0xD011) 0 0).storeBytes 0x300 [0x81]).setI 0x300 |>.setReg 0 57) (fun t =>
      t.pixel 57 0 && t.pixel 0 0 && t.reg 15 == 0) := by decide +kernel

/-! ### Timers and keys (L2.8, L2.9), each a whole update -/

theorem test_ldDTX : completes ((at200 0xF015).setReg 0 3) (fun t => t.delay == 2) := by decide +kernel
theorem test_ldXDT :
    completes ((at200 0xF107).setDelay 5) (fun t => t.reg 1 == 5 && t.delay == 4) := by decide +kernel
theorem test_ldSTX :
    reports ((at200 0xF018).setReg 0 1) (fun t o => t.sound == 0 && o.tone) := by decide +kernel
theorem test_ldSTX_two :
    reports ((at200 0xF018).setReg 0 2) (fun t o => t.sound == 1 && !o.tone) := by decide +kernel
theorem test_skp_ignores_the_high_nibble :
    completes (((at200 0xE29E).setReg 2 0x17).setKey 7 true) (fun t => t.pc == 0x204) := by decide +kernel
theorem test_skp_not_taken : completes ((at200 0xE29E).setReg 2 7) (fun t => t.pc == 0x202) := by
  decide +kernel
theorem test_sknp_taken : completes ((at200 0xE2A1).setReg 2 7) (fun t => t.pc == 0x204) := by
  decide +kernel
theorem test_sknp_not_taken :
    completes (((at200 0xE2A1).setReg 2 7).setKey 7 true) (fun t => t.pc == 0x202) := by decide +kernel
theorem test_ldXK_parks :
    completes (at200 0xF30A) (fun t => t.pc == 0x200 && t.mode == .waitingForKey) := by decide +kernel
theorem test_ldXK_takes_the_lowest :
    completes (((at200 0xF20A).setKey 3 true).setKey 10 true) (fun t =>
      t.reg 2 == 3 && t.pc == 0x202 && t.mode == .running) := by decide +kernel

/-! ### Host transactions (L2.10) -/

theorem test_faulted_block_is_halted :
    becomes (((at200 0x6005).setDelay 5).takeFault (.memRange 0xFFF))
      (((at200 0x6005).setDelay 5).takeFault (.memRange 0xFFF)) = true := by decide +kernel
theorem test_load_keeps_registers :
    ({ State.reset.setReg 3 9 with pc := 0x240 } : State).load (.program [0x12, 0x00]) =
      (State.reset.setReg 3 9).storeBytes 0x200 [0x12, 0x00] := by decide +kernel
theorem test_reset_during_the_wait : (State.reset.setMode .waitingForKey).hostReset = State.reset := by
  decide +kernel

/-! ### Witnesses: from a check to the hypothesis it stands for -/

/-- The instruction answers a next state that passes the check. -/
def yields (i : Instr) (s : State) (check : State → Bool) : Bool :=
  match exec i s with
  | .next t => check t
  | .fault _ => false
  | .refused _ => false

theorem yields_spec {i : Instr} {s : State} {check : State → Bool} (h : yields i s check = true) :
    ∃ t, exec i s = .next t ∧ check t = true := by
  unfold yields at h
  split at h
  · exact ⟨_, ‹_›, h⟩
  · cases h
  · cases h

theorem completes_spec {s : State} {check : State → Bool} (h : completes s check = true) :
    ∃ t, step s = .next t ∧ t.faulted = none ∧ check t = true := by
  unfold completes at h
  split at h
  · rw [Bool.and_eq_true, beq_iff_eq] at h
    exact ⟨_, ‹_›, h.1, h.2⟩
  · cases h
  · cases h

theorem takes_spec {s : State} {f : Fault} (h : takes s f = true) :
    ∃ t, step s = .next t ∧ t.faulted = some f := by
  unfold takes becomes at h
  split at h
  · have h' := of_decide_eq_true h
    subst h'
    exact ⟨_, ‹_›, rfl⟩
  · cases h
  · cases h

theorem reports_spec {s : State} {check : State → Outputs → Bool} (h : reports s check = true) :
    ∃ t o, update s = .next (t, o) ∧ check t o = true := by
  unfold reports at h
  split at h
  · exact ⟨_, _, ‹_›, h⟩
  · cases h
  · cases h

/-- A block built with the default parameters executes its word. -/
theorem executes_of_default {s : State} (h : s.faulted = none ∧ s.pc.toNat + 2 ≤ memSize ∧
    s.config.strictDecode = false) : s.Executes :=
  ⟨h.1, h.2.1, fun h' => by rw [h.2.2] at h'; cases h'.1⟩

/-! ### Witnesses: encoding -/

theorem witness_DecodeOfEncodeIsIdentity :
    (Instr.drw 15 0 15).wf = true ∧ (Instr.nopUnmatched 0xFFFF).wf = true := by decide
theorem witness_EveryWordDecodesToItsOneArm :
    (⟨"CLS", 0xF0FF, 0x00E0⟩ : OpcodeRow) ∈ opcodeRows ∧
    (⟨"CLS", 0xF0FF, 0x00E0⟩ : OpcodeRow).matchesWord 0x01E0 = true := by decide
theorem witness_ReencodingLosesOnlyUnexaminedBits :
    decodeWord 0x01E0 = .cls ∧ decodeWord 0x0FEE = .ret ∧ decodeWord 0x5121 = .seXY 1 2 ∧
    decodeWord 0x912F = .sneXY 1 2 ∧ decodeWord 0xFFFF = .nopUnmatched 0xFFFF := by decide
theorem witness_UnmatchedWordsOnlyAdvance :
    unmatchedWord 0x0000 = true ∧ unmatchedWord 0x8FFF = true ∧ unmatchedWord 0xE09F = true ∧
    unmatchedWord 0xFFFF = true := by decide
theorem witness_DecoderConsumesTwoBytes :
    ([0x60] : List Byte).length < 2 ∧ ([0x60, 0x05] : List Byte) = 0x60 :: 0x05 :: [] := by decide

/-! ### Witnesses: the update cycle -/

theorem witness_StepRunsTheDecodedInstruction :
    ((at200 0x6005).Executes ∧
      ∃ t, exec (decodeWord (at200 0x6005).wordAtPc) (at200 0x6005) = .next t) ∧
    ((at200 0x00EE).Executes ∧
      exec (decodeWord (at200 0x00EE).wordAtPc) (at200 0x00EE) = .fault (.stackUnderflow 0x200)) := by
  have h : decodeWord (at200 0x6005).wordAtPc = .ldXKK 0 5 := by decide +kernel
  have h' : decodeWord (at200 0x00EE).wordAtPc = .ret := by decide +kernel
  exact ⟨⟨executes_of_default (by decide +kernel), by rw [h]; exact ⟨_, rfl⟩⟩,
    executes_of_default (by decide +kernel), by rw [h']; rfl⟩
theorem witness_FetchReadsTwoBytesOrFaults :
    ({ State.reset with pc := 0xFFE } : State).pc.toNat < 0xFFF ∧
    0xFFF ≤ ({ State.reset with pc := 0xFFF } : State).pc.toNat ∧
    ({ State.reset with pc := 0xFFF } : State).live := ⟨by decide, by decide, rfl⟩
theorem witness_StrictDecodeRefusesTheListedWords :
    ((builtWith strictConfig 0x5001).live ∧ (builtWith strictConfig 0x5001).pc.toNat + 2 ≤ memSize ∧
      (builtWith strictConfig 0x5001).config.strictDecode = true ∧
      UnsettledByRule (builtWith strictConfig 0x5001).wordAtPc) ∧
    ((builtWith strictConfig 0x5000).live ∧ (builtWith strictConfig 0x5000).pc.toNat + 2 ≤ memSize ∧
      (builtWith strictConfig 0x5000).config.strictDecode = true ∧
      ¬ UnsettledByRule (builtWith strictConfig 0x5000).wordAtPc) ∧
    ((at200 0x5001).live ∧ (at200 0x5001).pc.toNat + 2 ≤ memSize ∧
      (at200 0x5001).config.strictDecode = false) := by
  unfold UnsettledByRule
  decide +kernel

/-- A block that has faulted at a fetch past the end. -/
def faultedBlock : State := State.reset.takeFault (.memRange 0xFFF)

theorem witness_FaultedBlockIsHaltedUntilReset :
    faultedBlock.faulted = some (.memRange 0xFFF) ∧ lookupKey faultedBlock.config.keymap 4 = some 4 ∧
    (0 < ([0x12] : List Byte).length ∧ 0 < progMax) ∧
    transact .reset faultedBlock = .next faultedBlock.hostReset ∧ faultedBlock.hostReset.faulted = none :=
  ⟨rfl, by decide +kernel, by decide, rfl, rfl⟩
theorem witness_FaultingStepChangesOnlyFaulted :
    (at200 0x00EE).live ∧ ∃ t, step (at200 0x00EE) = .next t ∧ t.faulted ≠ none := by
  obtain ⟨t, h, hf⟩ := takes_spec test_ret_on_an_empty_stack_faults
  exact ⟨by decide +kernel, t, h, by rw [hf]; exact Option.some_ne_none _⟩
theorem witness_EveryFaultHasItsCause_memRange_fetch :
    ({ State.reset with pc := 0xFFF } : State).live ∧
    ∃ t, step { State.reset with pc := 0xFFF } = .next t ∧ t.faulted = some (.memRange 0xFFF) :=
  ⟨rfl, takes_spec test_fetch_past_the_top_faults⟩
theorem witness_EveryFaultHasItsCause_memRange_data :
    ((at200 0xF033).setI 0xFFE).live ∧
    ∃ t, step ((at200 0xF033).setI 0xFFE) = .next t ∧ t.faulted = some (.memRange 0xFFE) :=
  ⟨by decide +kernel, takes_spec test_ldBX_past_the_top_faults⟩
theorem witness_EveryFaultHasItsCause_stackOverflow :
    ({ at200 0x2300 with stack := List.replicate 16 0x250 } : State).live ∧
    ∃ t, step { at200 0x2300 with stack := List.replicate 16 0x250 } = .next t ∧
      t.faulted = some (.stackOverflow 0x200) :=
  ⟨by decide +kernel, takes_spec test_call_on_a_full_stack_faults⟩
theorem witness_EveryFaultHasItsCause_stackUnderflow :
    (at200 0x00EE).live ∧ ((at200 0x00EE).config.strictDecode = false ∧
      (at200 0x00EE).config.vfAliasPolicy = .sequential) ∧
    ∃ t, step (at200 0x00EE) = .next t ∧ t.faulted = some (.stackUnderflow 0x200) :=
  ⟨by decide +kernel, by decide +kernel, takes_spec test_ret_on_an_empty_stack_faults⟩
theorem witness_EveryFaultHasItsCause_decodeUnsettled :
    (builtWith strictConfig 0x01E0).live ∧
    ∃ t, step (builtWith strictConfig 0x01E0) = .next t ∧ t.faulted = some (.decodeUnsettled 0x01E0) :=
  ⟨by decide +kernel, takes_spec test_strict_decode_refuses_01E0⟩
theorem witness_EveryFaultHasItsCause_aliasUnsettled :
    (builtWith aliasConfig 0x8F24).live ∧
    ∃ t, step (builtWith aliasConfig 0x8F24) = .next t ∧ t.faulted = some (.aliasUnsettled 0x8F24) :=
  ⟨by decide +kernel, takes_spec test_addXY_alias_refused⟩
theorem witness_ModeTellsWhetherTheStepParked :
    ((at200 0xF30A).Executes ∧ ∃ t, step (at200 0xF30A) = .next t ∧ t.faulted = none ∧
      (t.pc == 0x200 && t.mode == .waitingForKey) = true) ∧
    ((at200 0x6005).Executes ∧ ∃ t, step (at200 0x6005) = .next t ∧ t.faulted = none ∧
      (t.reg 0 == 5 && t.pc == 0x202) = true) :=
  ⟨⟨executes_of_default (by decide +kernel), completes_spec test_ldXK_parks⟩,
    executes_of_default (by decide +kernel), completes_spec test_fetch_is_big_endian⟩

/-- A block with a return address on its stack, a written byte and a running timer. -/
def busyBlock : State := { (at200 0x6005).setDelay 3 with stack := [0x250] }

theorem busyBlock_memory : Memory.wf busyBlock.config busyBlock.mem := by
  have hm : busyBlock.mem = Memory.writeBytes Config.default [] 0x200 [0x60, 0x05] := by decide +kernel
  have hc : busyBlock.config = Config.default := by decide +kernel
  rw [hm, hc]
  exact writeBytes_wf (nil_wf _) (by decide)

theorem busyBlock_depth (d : Nat) (h : busyBlock.config.stackDepth = some d) :
    busyBlock.stack.length ≤ d := by
  have hd : busyBlock.config.stackDepth = some 16 := by decide +kernel
  have hs : busyBlock.stack.length = 1 := by decide +kernel
  rw [hd] at h
  rw [hs, ← Option.some.inj h]
  decide

theorem busyBlock_inv : busyBlock.Inv := by
  have hf : busyBlock.faulted = none := by decide +kernel
  exact {
    memory := busyBlock_memory
    depth := busyBlock_depth
    returns := fun w h => by
      have hs : busyBlock.stack = [0x250] := by decide +kernel
      rw [hs, List.mem_singleton] at h
      rw [h]; decide
    clean := by decide +kernel
    strict := fun w h => by rw [hf] at h; cases h
    aliased := fun w h => by rw [hf] at h; cases h }

theorem witness_EveryStepKeepsTheInvariant :
    busyBlock.Inv ∧ ∃ t, step busyBlock = .next t ∧ t.faulted = none ∧
      (t.stack == [0x250] && t.delay == 2) = true := ⟨busyBlock_inv, completes_spec (by decide +kernel)⟩
theorem witness_EveryRunKeepsTheInvariant :
    ∃ t, runTransactions [.load (.program [0x60, 0x05]), .keyEvent 7 true, .reset]
      (State.construct Config.default) = .next t := ⟨_, rfl⟩
theorem witness_CanonicalMemoriesThatReadAlikeAreEqual :
    Memory.wf Config.default [(0x300, 1), (0xFFF, 2)] ∧
    ∀ a, (Memory.lookup [(0x300, 1), (0xFFF, 2)] a).getD (Config.default.initialByte a) =
      (Memory.lookup [(0x300, 1), (0xFFF, 2)] a).getD (Config.default.initialByte a) :=
  ⟨by decide +kernel, fun _ => rfl⟩
theorem witness_UpdateTicksTheTimers :
    ((at200 0x8008).setSound 1).live ∧ ∃ t, instructionStep ((at200 0x8008).setSound 1) = .next t := by
  refine ⟨by decide +kernel, ?_⟩
  have h : ((at200 0x8008).setSound 1).fetch = .ok 0x8008 := by decide +kernel
  refine ⟨(((at200 0x8008).setSound 1).advance).setMode .running, ?_⟩
  unfold instructionStep
  rw [h]
  exact if_neg (by decide +kernel)
theorem witness_PresentExactlyAfterClsOrDrw :
    ((lit (at200 0x00E0) 5 7).Executes ∧ (lit (at200 0x00E0) 5 7).dirty = false ∧
      ∃ t o, update (lit (at200 0x00E0) 5 7) = .next (t, o) ∧ (t.faulted == none && o.present) = true) ∧
    ((at200 0x6000).Executes ∧ (at200 0x6000).dirty = false ∧
      ∃ t o, update (at200 0x6000) = .next (t, o) ∧ (t.faulted == none && !o.present) = true) :=
  ⟨⟨executes_of_default (by decide +kernel), by decide +kernel, reports_spec (by decide +kernel)⟩,
    executes_of_default (by decide +kernel), by decide +kernel, reports_spec (by decide +kernel)⟩

/-- `LD DT, V0` followed by `LD V1, DT`, with `V0` = 3. -/
def timerProgram : State := ((at200 0xF015).setReg 0 3).storeBytes 0x202 [0xF1, 0x07]

theorem witness_WrittenDelayIsReadOneLowerInTheNextStep :
    timerProgram.Executes ∧ decodeWord timerProgram.wordAtPc = .ldDTX 0 ∧
    ∃ u, step timerProgram = .next u ∧ u.faulted = none ∧
      decide (u.pc.toNat + 2 ≤ memSize ∧ u.config.strictDecode = false ∧
        decodeWord u.wordAtPc = .ldXDT 1) = true :=
  ⟨executes_of_default (by decide +kernel), by decide +kernel, completes_spec (by decide +kernel)⟩
theorem witness_TimerMovesCopyTheByte :
    timerProgram.Executes ∧ decodeWord timerProgram.wordAtPc = .ldDTX 0 ∧
    ((at200 0xF018).setReg 0 1).Executes ∧
    decodeWord ((at200 0xF018).setReg 0 1).wordAtPc = .ldSTX 0 :=
  ⟨executes_of_default (by decide +kernel), by decide +kernel, executes_of_default (by decide +kernel), by decide +kernel⟩

/-! ### Witnesses: who writes what -/

theorem witness_OnlyCallAndRetMoveTheStack :
    (∃ t, exec (.call 0x300) State.reset = .next t) ∧
    (∃ t, exec .ret { State.reset with stack := [0x250] } = .next t) ∧
    (∃ t, exec .cls State.reset = .next t) := ⟨⟨_, rfl⟩, ⟨_, rfl⟩, ⟨_, rfl⟩⟩
theorem witness_OnlyClsAndDrwTouchTheFrame :
    (∃ t, exec (.ldI 0x300) State.reset = .next t) ∧ Instr.ldI 0x300 ≠ .cls ∧
    ∀ x y n, Instr.ldI 0x300 ≠ .drw x y n := ⟨⟨_, rfl⟩, by decide, fun _ _ _ h => by cases h⟩
theorem witness_NoInstructionWritesKeysOrParameters :
    (∃ t, exec (.ldI 0x300) State.reset = .next t) ∧ ∀ x kk, Instr.ldI 0x300 ≠ .rnd x kk :=
  ⟨⟨_, rfl⟩, fun _ _ h => by cases h⟩
theorem witness_IndexAndTimersHaveTheirWriters :
    (∃ t, exec (.ldI 0x300) State.reset = .next t ∧ t.i ≠ State.reset.i) ∧
    (∃ t, exec (.ldDTX 0) (State.reset.setReg 0 3) = .next t ∧ t.delay ≠ (State.reset.setReg 0 3).delay) ∧
    (∃ t, exec (.ldSTX 0) (State.reset.setReg 0 3) = .next t ∧ t.sound ≠ (State.reset.setReg 0 3).sound) :=
  ⟨⟨_, rfl, by decide +kernel⟩, ⟨_, rfl, by decide +kernel⟩, ⟨_, rfl, by decide +kernel⟩⟩
theorem witness_RegistersChangeOnlyAsDestinationOrFlag :
    (∃ t, exec (.addXKK 1 2) State.reset = .next t) ∧ (Instr.addXKK 1 2).destination 2 = false ∧
    ¬ ((Instr.addXKK 1 2).writesFlag = true ∧ (2 : Reg) = VF) := ⟨⟨_, rfl⟩, by decide, by decide⟩
theorem witness_OnlyStoresWriteMemory :
    (∃ t, exec (.ldBX 0) ((State.reset.setI 0xFFD).setReg 0 1) = .next t ∧ decide (t.readByte 0xFFF ≠
      ((State.reset.setI 0xFFD).setReg 0 1).readByte 0xFFF) = true) ∧
    (∃ t, exec (.ldMemX 0) ((State.reset.setI 0xFFF).setReg 0 1) = .next t ∧ decide (t.readByte 0xFFF ≠
      ((State.reset.setI 0xFFF).setReg 0 1).readByte 0xFFF) = true) :=
  ⟨yields_spec (by decide +kernel), yields_spec (by decide +kernel)⟩
theorem witness_PcIsWrittenInOneOfFiveWays :
    (∃ t, exec (.ldI 0x300) State.reset = .next t) ∧ (Instr.ldI 0x300).movesPc = false ∧
    (∃ t, exec (.seXKK 0 0) State.reset = .next t) ∧ (Instr.seXKK 0 0).skips = true ∧
    (∃ t, exec (.jp 0xFFF) State.reset = .next t) ∧ (∃ t, exec (.jpV0 0xFFF) State.reset = .next t) ∧
    (∃ t, exec .ret { State.reset with stack := [0xFFFF] } = .next t) ∧
    ((∃ t, exec (.ldXK 0) State.reset = .next t ∧ (t.mode == .waitingForKey) = true) ∧
      ∀ k, State.reset.isPressed k = false) ∧
    ((∃ t, exec (.ldXK 0) (State.reset.setKey 15 true) = .next t ∧ (t.mode == .running) = true) ∧
      ∃ k, (State.reset.setKey 15 true).isPressed k = true) :=
  ⟨⟨_, rfl⟩, rfl, ⟨_, rfl⟩, rfl, ⟨_, rfl⟩, ⟨_, rfl⟩, ⟨_, rfl⟩,
    ⟨yields_spec (by decide +kernel), by decide +kernel⟩,
    yields_spec (by decide +kernel), 15, by decide +kernel⟩

/-! ### Witnesses: memory, control transfer and skips -/

theorem witness_MemReadAnswersTheAddressedBytes :
    (4096 + 0 ≤ memSize) ∧ (4080 + 16 ≤ memSize) ∧ (4081 + 16 > memSize ∧ 16 ≠ 0) := by decide
theorem witness_MemWriteChangesOnlyTheAddressedBytes :
    (4093 + ([1, 2, 3] : List Byte).length ≤ memSize ∧ Memory.wf State.reset.config State.reset.mem) ∧
    (4094 + ([1, 2, 3] : List Byte).length > memSize ∧ ([1, 2, 3] : List Byte) ≠ []) := by
  decide +kernel
theorem witness_CallPushesItsOwnAddress :
    (∀ d, ({ State.reset with stack := List.replicate 15 0x250 } : State).config.stackDepth = some d →
      ({ State.reset with stack := List.replicate 15 0x250 } : State).stack.length < d) ∧
    ({ State.reset with stack := List.replicate 16 0x250 } : State).config.stackDepth =
      some ({ State.reset with stack := List.replicate 16 0x250 } : State).stack.length := by
  refine ⟨fun d h => ?_, by decide +kernel⟩
  have hd : (some 16 : Option Nat) = some d := h
  obtain rfl := Option.some.inj hd
  decide
/-- A block without a bound on its stack. -/
theorem witness_CallPushesItsOwnAddress_unbounded :
    ∀ d, (State.construct { Config.default with stackDepth := none }).config.stackDepth = some d →
      (State.construct { Config.default with stackDepth := none }).stack.length < d := fun d h => by
  have h' : (none : Option Nat) = some d := h
  cases h'
theorem witness_RetResumesPastThePoppedAddress :
    ({ State.reset with stack := [0xFFFF] } : State).stack = 0xFFFF :: [] ∧ State.reset.stack = [] :=
  ⟨rfl, rfl⟩
theorem witness_RetUndoesCall :
    ∃ t, exec (.call 0x300) State.reset = .next t ∧ (t.setReg 3 7).stack = t.stack := ⟨_, rfl, rfl⟩
theorem witness_SkipsTestAndWriteOnlyPc :
    (State.reset.setReg 3 0x42).reg 3 = 0x42 ∧ (State.reset.setReg 3 0x41).reg 3 ≠ 0x42 ∧
    State.reset.reg 1 = State.reset.reg 2 ∧ (State.reset.setReg 1 7).reg 1 ≠ (State.reset.setReg 1 7).reg 2 := by
  decide +kernel
theorem witness_KeySkipsTestTheKeyLevel :
    ((7 : Key).val = ((State.reset.setReg 2 0x17).setKey 7 true |>.reg 2).toNat % 16 ∧
      ((State.reset.setReg 2 0x17).setKey 7 true).isPressed 7 = true) ∧
    ((15 : Key).val = ((State.reset.setReg 2 0xFF).reg 2).toNat % 16 ∧
      (State.reset.setReg 2 0xFF).isPressed 15 = false) := by decide +kernel

/-! ### Witnesses: the flagged operations -/

theorem admits_default (rs : List Reg) : State.reset.admitsOperands rs := fun h => by
  have h' : AliasPolicy.sequential = .fault := h
  cases h'

/-- With the fault policy an operand `VF` is refused and any other pair admitted. -/
theorem alias_policy_at_the_operands :
    ¬ (State.construct aliasConfig).admitsOperands [15, 0] ∧
    ¬ (State.construct aliasConfig).admitsOperands [0, 15] ∧
    (State.construct aliasConfig).admitsOperands [14, 0] := by
  unfold State.admitsOperands
  decide +kernel

theorem witness_AddWritesSumAndCarry :
    (255 = ((State.reset.setReg 0 0xFF).setReg 1 1 |>.reg 0).toNat ∧
      1 = ((State.reset.setReg 0 0xFF).setReg 1 1 |>.reg 1).toNat ∧ 1 = (if 255 + 1 > 255 then 1 else 0)) ∧
    State.reset.admitsOperands [15, 15] ∧ State.reset.admitsOperands [0, 15] ∧
    ¬ (State.construct aliasConfig).admitsOperands [15, 0] :=
  ⟨by decide +kernel, admits_default _, admits_default _, alias_policy_at_the_operands.1⟩
theorem witness_SubtractionsWriteDifferenceAndNoBorrow :
    (3 = ((State.reset.setReg 1 3).setReg 2 5 |>.reg 1).toNat ∧
      5 = ((State.reset.setReg 1 3).setReg 2 5 |>.reg 2).toNat ∧
      0 = (if 5 > 3 then 0 else 1) ∧ 1 = (if 3 > 5 then 0 else 1)) ∧
    State.reset.admitsOperands [15, 15] ∧ State.reset.admitsOperands [1, 15] ∧
    ¬ (State.construct aliasConfig).admitsOperands [0, 15] :=
  ⟨by decide +kernel, admits_default _, admits_default _, alias_policy_at_the_operands.2.1⟩
theorem witness_ShiftsPutTheLostBitIntoVF :
    0x81 = ((State.reset.setReg 4 0x81).reg 4).toNat ∧ State.reset.admitsOperands [15] ∧
    ¬ (State.construct aliasConfig).admitsOperands [15] := by
  refine ⟨by decide +kernel, admits_default _, ?_⟩
  unfold State.admitsOperands
  decide +kernel
theorem witness_AliasPolicyRefusesExactlyTheAliasWords :
    ((State.construct aliasConfig).config.vfAliasPolicy = .fault ∧ (Instr.addXY 15 0).namesFlag = true) ∧
    exec (.addXY 15 0) (State.construct aliasConfig) = .fault (.aliasUnsettled 0x8F04) := ⟨by decide, rfl⟩

/-! ### Witnesses: index and memory -/

theorem witness_AddIndexFlagsItsRange :
    (0x1000 = ((State.reset.setI 0xFFF).setReg 1 1).i.toNat + ((State.reset.setI 0xFFF).setReg 1 1 |>.reg 1).toNat) ∧
    State.reset.admitsOperands [15] ∧ ¬ (State.construct aliasConfig).admitsOperands [15] :=
  ⟨by decide +kernel, witness_ShiftsPutTheLostBitIntoVF.2⟩
theorem witness_DecimalDigitsAreStoredAtI :
    (255 = ((State.reset.setI 0xFFD).setReg 0 0xFF |>.reg 0).toNat ∧
      ((State.reset.setI 0xFFD).setReg 0 0xFF).i.toNat + 3 ≤ memSize) ∧
    (0 = ((State.reset.setI 0xFFE).reg 0).toNat ∧ (State.reset.setI 0xFFE).i.toNat + 3 > memSize) := by
  decide +kernel
theorem witness_RegisterDumpStoresTheBlock :
    (State.reset.setI 0xFF0).i.toNat + (15 : Reg).val + 1 ≤ memSize ∧
    (State.reset.setI 0xFF1).i.toNat + (15 : Reg).val + 1 > memSize := by decide +kernel
theorem witness_RegisterLoadReadsTheBlock :
    (State.reset.setI 0xFFF).i.toNat + (0 : Reg).val + 1 ≤ memSize ∧
    (State.reset.setI 0xFFF).i.toNat + (1 : Reg).val + 1 > memSize := by decide +kernel
theorem witness_LoadAfterDumpRestoresTheRegisters :
    ∃ t, exec (.ldMemX 3) (State.reset.setI 0x300) = .next t ∧
      (∀ a, (t.setI 0x300).readByte a = t.readByte a) ∧ (t.setI 0x300).i = (State.reset.setI 0x300).i := by
  obtain ⟨t, h, _⟩ := yields_spec (i := .ldMemX 3) (s := State.reset.setI 0x300)
    (check := fun _ => true) (by decide +kernel)
  exact ⟨t, h, fun _ => rfl, rfl⟩

/-- `LD [I], V1` with `I` = 0x202 and `V1` = 0xE0: it stores the word of `CLS` behind itself. -/
def selfModifying : State := ((at200 0xF155).setI 0x202).setReg 1 0xE0

theorem witness_StoredWordIsFetchedNext :
    selfModifying.Executes ∧ decodeWord selfModifying.wordAtPc = .ldMemX 1 ∧
    selfModifying.i.toNat + (1 : Reg).val + 1 ≤ memSize ∧ (1 : Reg).val = (0 : Reg).val + 1 ∧
    (1 : Reg).val ≤ (1 : Reg).val ∧ selfModifying.i.toNat + (0 : Reg).val = selfModifying.pc.toNat + 2 :=
  ⟨executes_of_default (by decide +kernel), by decide +kernel, by decide +kernel, by decide, by decide,
    by decide +kernel⟩

/-! ### Witnesses: display -/

theorem witness_DrawFlipsLitPixelsAndFlagsCollision :
    (State.reset.admitsOperands [0, 15] ∧ ((State.reset.setI 0xFFE).i.toNat + (2 : Height).val ≤ memSize)) ∧
    ((0 : Height).val = 0 ∧ (State.reset.setI 0xFFF).i.toNat = 0xFFF) ∧
    ((3 : Height).val ≠ 0 ∧ (State.reset.setI 0xFFE).i.toNat + (3 : Height).val > memSize) ∧
    ¬ (State.construct aliasConfig).admitsOperands [0, 15] :=
  ⟨⟨admits_default _, by decide +kernel⟩, by decide +kernel, by decide +kernel,
    alias_policy_at_the_operands.2.1⟩
/-- Both collision clauses: a White and a Black pixel under a lit bit of glyph 0. -/
theorem witness_DrawFlipsLitPixelsAndFlagsCollision_collision :
    (∃ (X : Col) (Y : Row), spriteLit (State.reset.spriteRows 5) 60 30 X.val Y.val = true ∧
      (lit State.reset 63 31).pixel X Y = true) ∧
    ¬ ∃ (X : Col) (Y : Row), spriteLit (State.reset.spriteRows 5) 60 30 X.val Y.val = true ∧
      State.reset.pixel X Y = true := by
  refine ⟨⟨63, 31, by decide +kernel⟩, ?_⟩
  rintro ⟨X, Y, -, h⟩
  have hp : State.reset.pixel X Y = false := by
    simp [State.pixel, Frame.getPixel, State.reset, State.construct]
  rw [hp] at h
  cases h
theorem witness_DrawingTwiceRestoresTheFrame :
    (0 : Reg) ≠ VF ∧ (1 : Reg) ≠ VF ∧ ∃ t, exec (.drw 0 1 5) State.reset = .next t ∧
      (t.reg 15 == 0 && t.pixel 3 4) = true := ⟨by decide, by decide, yields_spec (by decide +kernel)⟩

/-! ### Witnesses: keys and the host's transactions -/

theorem witness_KeyWaitTakesTheLowestKeyOrParks :
    (∀ k, State.reset.isPressed k = false) ∧
    (((State.reset.setKey 3 true).setKey 10 true).isPressed 3 = true ∧
      ∀ j, j < (3 : Key) → ((State.reset.setKey 3 true).setKey 10 true).isPressed j = false) := by
  decide +kernel
theorem witness_KeyEventSetsItsKeyAlone :
    lookupKey State.reset.config.keymap 16 = none ∧ lookupKey State.reset.config.keymap 15 = some 15 ∧
    ∃ t, step (at200 0x6005) = .next t ∧ t.faulted = none ∧ (t.reg 0 == 5 && t.pc == 0x202) = true :=
  ⟨by decide +kernel, by decide +kernel, completes_spec test_fetch_is_big_endian⟩
theorem witness_LoadWritesTheProgramAndPc :
    3583 < (List.replicate 3585 (0x12 : Byte)).length ∧ 3583 < 3584 := by
  rw [List.length_replicate]; decide
theorem witness_ResetRestoresEveryField :
    transact .reset faultedBlock = .next faultedBlock.hostReset ∧ 79 < 80 ∧ 80 ≤ 80 := ⟨rfl, by decide⟩

/-! ### Runs (R147, L2.10: `CLS` is presented, the load before it reports no outputs) -/

theorem test_reports_give_the_outputs_of_each_update :
    (match Machine.reports [.load (.program [0x00, 0xE0]), .update] State.reset with
      | .next rs => rs.map fun r => r.outputs.map Outputs.present
      | .fault _ => []
      | .refused _ => []) = [none, some true] := by decide +kernel

/-- An infinite run: the program is loaded, then every transaction is an update. -/
def loadThenUpdates (n : Nat) : Transaction := if n = 0 then .load (.program [0x12, 0x00]) else .update

theorem witness_EveryRunGoesOnAndReportsEachTransaction :
    loadThenUpdates 0 ≠ .update ∧ loadThenUpdates 1 = .update := by decide
theorem test_infinite_run_loops_at_its_jump :
    (match runState loadThenUpdates State.reset 4 with
      | .next t => t.pc
      | .fault _ => 0
      | .refused _ => 0) = 0x200 := by decide +kernel

end Sys2Proof.Tests
end

section
/-! SUPPORT. Frames: what each state operation changes, and, for every instruction at once, the components it
can change (spec/10_state.md, the writers of R30 to R45). Later proofs cite `exec_changesOnly` and `exec_sameAt`. -/

namespace Sys2Proof.Machine

variable {s t u : State} {A : Component → Prop}

/-! ### Frames compose -/

theorem SameAt.trans {c : Component} (h₁ : SameAt s t c) (h₂ : SameAt t u c) : SameAt s u c := by
  cases c <;> exact Eq.trans h₂ h₁

theorem ChangesOnly.trans (h₁ : ChangesOnly s t A) (h₂ : ChangesOnly t u A) : ChangesOnly s u A :=
  fun c hc => (h₁ c hc).trans (h₂ c hc)

/-! ### One frame per state operation -/

theorem changesOnly_setReg {r : Reg} {b : Byte} (h : A (.reg r)) : ChangesOnly s (s.setReg r b) A := by
  intro c hc
  cases c with
  | reg q => exact reg_setReg_ne s b fun hq => hc (hq ▸ h)
  | _ => rfl

theorem changesOnly_setRegs {bs : List Byte} (h : ∀ q : Reg, q.val < bs.length → A (.reg q)) :
    ChangesOnly s (s.setRegs bs) A := by
  intro c hc
  cases c with
  | reg q => exact (reg_setRegs s bs q).trans (if_neg fun hq => hc (h q hq))
  | _ => rfl

theorem changesOnly_setI {w : Word} (h : A .index) : ChangesOnly s (s.setI w) A := by
  intro c hc
  cases c with
  | index => exact absurd h hc
  | _ => rfl

theorem changesOnly_advance (h : A .pc) : ChangesOnly s s.advance A := by
  intro c hc
  cases c with
  | pc => exact absurd h hc
  | _ => rfl

theorem changesOnly_skipIf {b : Bool} (h : A .pc) : ChangesOnly s (s.skipIf b) A := by
  intro c hc
  cases c with
  | pc => exact absurd h hc
  | _ => rfl

theorem changesOnly_jumpTo {w : Word} (h : A .pc) : ChangesOnly s (s.jumpTo w) A := by
  intro c hc
  cases c with
  | pc => exact absurd h hc
  | _ => rfl

theorem changesOnly_setStack {ws : List Word} (h : A .stack) : ChangesOnly s (s.setStack ws) A := by
  intro c hc
  cases c with
  | stack => exact absurd h hc
  | _ => rfl

theorem changesOnly_push {w : Word} (h : A .stack) : ChangesOnly s (s.push w) A := changesOnly_setStack h

theorem changesOnly_setDelay {b : Byte} (h : A .delay) : ChangesOnly s (s.setDelay b) A := by
  intro c hc
  cases c with
  | delay => exact absurd h hc
  | _ => rfl

theorem changesOnly_setSound {b : Byte} (h : A .sound) : ChangesOnly s (s.setSound b) A := by
  intro c hc
  cases c with
  | sound => exact absurd h hc
  | _ => rfl

theorem changesOnly_setMode {m : Mode} (h : A .mode) : ChangesOnly s (s.setMode m) A := by
  intro c hc
  cases c with
  | mode => exact absurd h hc
  | _ => rfl

theorem changesOnly_afterDraw (h : A .draws) : ChangesOnly s s.afterDraw A := by
  intro c hc
  cases c with
  | draws => exact absurd h hc
  | _ => rfl

theorem changesOnly_clearFrame (h : ∀ x y, A (.pixel x y)) : ChangesOnly s s.clearFrame A := by
  intro c hc
  cases c with
  | pixel x y => exact absurd (h x y) hc
  | _ => rfl

theorem changesOnly_markDirty (h : A .dirty) : ChangesOnly s s.markDirty A := by
  intro c hc
  cases c with
  | dirty => exact absurd h hc
  | _ => rfl

theorem changesOnly_storeBytes {a : Nat} {bs : List Byte} (h : ∀ c, InBytes a bs.length c → A c) :
    ChangesOnly s (s.storeBytes a bs) A := by
  intro c hc
  cases c with
  | byte b =>
    refine (readByte_storeBytes s a b bs).trans (if_neg fun hb => hc (h _ ⟨b - a, by omega, ?_⟩))
    rw [Nat.add_sub_cancel' hb.1]
  | _ => rfl

theorem changesOnly_drawSprite {px py : Nat} {rows : List Byte} (hp : ∀ x y, A (.pixel x y)) (hd : A .dirty)
    (hv : A (.reg VF)) : ChangesOnly s (s.drawSprite px py rows) A := by
  intro c hc
  cases c with
  | pixel x y => exact absurd (hp x y) hc
  | dirty => exact absurd hd hc
  | reg q => exact (drawSprite_reg s px py rows q).trans (if_neg fun hq : q = VF => hc (hq ▸ hv))
  | _ => rfl

/-! ### One operation after another -/

theorem ChangesOnly.advance (h : ChangesOnly s t A) (hp : A .pc) : ChangesOnly s t.advance A :=
  h.trans (changesOnly_advance hp)

theorem ChangesOnly.setReg (h : ChangesOnly s t A) {r : Reg} {b : Byte} (hr : A (.reg r)) :
    ChangesOnly s (t.setReg r b) A := h.trans (changesOnly_setReg hr)

theorem ChangesOnly.setI (h : ChangesOnly s t A) {w : Word} (hi : A .index) : ChangesOnly s (t.setI w) A :=
  h.trans (changesOnly_setI hi)

/-! ### The writers -/

/-- The components an instruction that completes from `s` can change. -/
def MayWrite (s : State) : Instr → Component → Prop
  | .cls, c => c = .pc ∨ c = .dirty ∨ ∃ x y, c = .pixel x y
  | .ret, c | .call _, c => c = .pc ∨ c = .stack
  | .jp _, c | .jpV0 _, c | .seXKK _ _, c | .sneXKK _ _, c | .seXY _ _, c | .sneXY _ _, c | .skp _, c
  | .sknp _, c | .nopUnmatched _, c => c = .pc
  | .ldXKK x _, c | .addXKK x _, c | .ldXY x _, c | .orXY x _, c | .andXY x _, c | .xorXY x _, c
  | .ldXDT x, c => c = .pc ∨ c = .reg x
  | .addXY x _, c | .subXY x _, c | .shr x _, c | .subnXY x _, c | .shl x _, c =>
    c = .pc ∨ c = .reg x ∨ c = .reg VF
  | .ldI _, c | .ldFX _, c => c = .pc ∨ c = .index
  | .rnd x _, c => c = .pc ∨ c = .reg x ∨ c = .draws
  | .drw _ _ _, c => c = .pc ∨ c = .dirty ∨ c = .reg VF ∨ ∃ X Y, c = .pixel X Y
  | .ldXK x, c => c = .pc ∨ c = .mode ∨ c = .reg x
  | .ldDTX _, c => c = .pc ∨ c = .delay
  | .ldSTX _, c => c = .pc ∨ c = .sound
  | .addIX _, c => c = .pc ∨ c = .index ∨ c = .reg VF
  | .ldBX _, c => c = .pc ∨ InBytes s.i.toNat 3 c
  | .ldMemX x, c => c = .pc ∨ c = .index ∨ InBytes s.i.toNat (x.val + 1) c
  | .ldXMem x, c => c = .pc ∨ c = .index ∨ ∃ q : Reg, q.val ≤ x.val ∧ c = .reg q

theorem completes_changesOnly {i : Instr} (h : Completes s t i) : ChangesOnly s t (MayWrite s i) := by
  cases i with
  | cls =>
    cases h
    exact ((changesOnly_clearFrame fun x y => .inr (.inr ⟨x, y, rfl⟩)).trans
      (changesOnly_markDirty (.inr (.inl rfl)))).advance (.inl rfl)
  | ret =>
    obtain ⟨top, rest, _, rfl⟩ := h
    exact (changesOnly_setStack (.inr rfl)).trans (changesOnly_jumpTo (.inl rfl))
  | call nnn =>
    obtain ⟨_, rfl⟩ := h
    exact (changesOnly_push (.inr rfl)).trans (changesOnly_jumpTo (.inl rfl))
  | jp _ | jpV0 _ => cases h; exact changesOnly_jumpTo rfl
  | seXKK _ _ | sneXKK _ _ | seXY _ _ | sneXY _ _ | skp _ | sknp _ => cases h; exact changesOnly_skipIf rfl
  | nopUnmatched _ => cases h; exact changesOnly_advance rfl
  | ldXKK _ _ | addXKK _ _ | ldXY _ _ | orXY _ _ | andXY _ _ | xorXY _ _ | ldXDT _ =>
    cases h; exact (changesOnly_setReg (.inr rfl)).advance (.inl rfl)
  | addXY _ _ | subXY _ _ | shr _ _ | subnXY _ _ | shl _ _ =>
    cases h
    exact ((changesOnly_setReg (.inr (.inr rfl))).setReg (.inr (.inl rfl))).advance (.inl rfl)
  | ldI _ | ldFX _ => cases h; exact (changesOnly_setI (.inr rfl)).advance (.inl rfl)
  | rnd _ _ =>
    cases h
    exact ((changesOnly_afterDraw (.inr (.inr rfl))).setReg (.inr (.inl rfl))).advance (.inl rfl)
  | drw _ _ _ =>
    obtain ⟨_, rfl⟩ := h
    exact (changesOnly_drawSprite (fun x y => .inr (.inr (.inr ⟨x, y, rfl⟩))) (.inr (.inl rfl))
      (.inr (.inr (.inl rfl)))).advance (.inl rfl)
  | ldXK _ =>
    obtain ⟨_, rfl⟩ | ⟨_, _, rfl⟩ := h
    · exact changesOnly_setMode (.inr (.inl rfl))
    · exact ((changesOnly_setReg (.inr (.inr rfl))).trans (changesOnly_setMode (.inr (.inl rfl)))).advance
        (.inl rfl)
  | ldDTX _ => cases h; exact (changesOnly_setDelay (.inr rfl)).advance (.inl rfl)
  | ldSTX _ => cases h; exact (changesOnly_setSound (.inr rfl)).advance (.inl rfl)
  | addIX _ =>
    cases h; exact ((changesOnly_setI (.inr (.inl rfl))).setReg (.inr (.inr rfl))).advance (.inl rfl)
  | ldBX _ => obtain ⟨_, rfl⟩ := h; exact (changesOnly_storeBytes fun _ => .inr).advance (.inl rfl)
  | ldMemX x =>
    obtain ⟨_, rfl⟩ := h
    refine ((changesOnly_storeBytes fun c hc => .inr (.inr ?_)).setI (.inr (.inl rfl))).advance (.inl rfl)
    rwa [length_regBlock] at hc
  | ldXMem x =>
    obtain ⟨_, rfl⟩ := h
    refine ((changesOnly_setRegs fun q hq => .inr (.inr ⟨q, ?_, rfl⟩)).setI (.inr (.inl rfl))).advance
      (.inl rfl)
    rw [List.length_map, List.length_range] at hq
    exact Nat.le_of_lt_succ hq

/-- The frame of every instruction. -/
theorem exec_changesOnly {i : Instr} (h : exec i s = .next t) : ChangesOnly s t (MayWrite s i) :=
  completes_changesOnly (exec_next h)

theorem exec_sameAt {i : Instr} (c : Component) (h : exec i s = .next t) (hc : ¬ MayWrite s i c) :
    SameAt s t c := exec_changesOnly h c hc

/-! ### The writers of each component -/

theorem mayWrite_stack {i : Instr} : MayWrite s i .stack ↔ i = .ret ∨ ∃ nnn, i = .call nnn := by
  cases i <;> simp [MayWrite, InBytes]

theorem mayWrite_pixel {i : Instr} {x : Col} {y : Row} :
    MayWrite s i (.pixel x y) ↔ i = .cls ∨ ∃ a b n, i = .drw a b n := by
  cases i <;> simp [MayWrite, InBytes]

theorem mayWrite_dirty {i : Instr} : MayWrite s i .dirty ↔ i = .cls ∨ ∃ a b n, i = .drw a b n := by
  cases i <;> simp [MayWrite, InBytes]

theorem mayWrite_index {i : Instr} : MayWrite s i .index ↔
    (∃ nnn, i = .ldI nnn) ∨ ∃ x, i = .addIX x ∨ i = .ldFX x ∨ i = .ldMemX x ∨ i = .ldXMem x := by
  cases i <;> simp [MayWrite, InBytes]

theorem mayWrite_delay {i : Instr} : MayWrite s i .delay ↔ ∃ x, i = .ldDTX x := by
  cases i <;> simp [MayWrite, InBytes]

theorem mayWrite_sound {i : Instr} : MayWrite s i .sound ↔ ∃ x, i = .ldSTX x := by
  cases i <;> simp [MayWrite, InBytes]

theorem mayWrite_draws {i : Instr} : MayWrite s i .draws ↔ ∃ x kk, i = .rnd x kk := by
  cases i <;> simp [MayWrite, InBytes]

theorem mayWrite_reg {i : Instr} {r : Reg} : MayWrite s i (.reg r) ↔
    i.destination r = true ∨ i.writesFlag = true ∧ r = VF := by
  cases i <;> simp [MayWrite, InBytes, Instr.destination, Instr.writesFlag]

theorem not_mayWrite_key {i : Instr} {k : Key} : ¬ MayWrite s i (.key k) := by
  cases i <;> simp [MayWrite, InBytes]

theorem not_mayWrite_config {i : Instr} : ¬ MayWrite s i .config := by
  cases i <;> simp [MayWrite, InBytes]

theorem not_mayWrite_faulted {i : Instr} : ¬ MayWrite s i .faulted := by
  cases i <;> simp [MayWrite, InBytes]

/-! ### What every instruction leaves unchanged -/

theorem exec_config {i : Instr} (h : exec i s = .next t) : t.config = s.config :=
  exec_sameAt .config h not_mayWrite_config

theorem exec_faulted {i : Instr} (h : exec i s = .next t) : t.faulted = s.faulted :=
  exec_sameAt .faulted h not_mayWrite_faulted

theorem exec_isPressed {i : Instr} (h : exec i s = .next t) (k : Key) : t.isPressed k = s.isPressed k :=
  exec_sameAt (.key k) h not_mayWrite_key

end Sys2Proof.Machine
end

section
/-! PROOFS. Who writes what (spec/10_state.md R30 to R48): each statement reads off the frame of every
instruction. -/

namespace Sys2Proof.Machine

/-- Settles O22: a `CALL` and a `RET` by the state they complete in, every other instruction by its frame. -/
theorem onlyCallAndRetMoveTheStack : Obligations.OnlyCallAndRetMoveTheStack := by
  intro i s t h
  refine ⟨?_, ?_, fun hr hc => ?_⟩
  · rintro ⟨nnn, rfl⟩
    obtain ⟨_, rfl⟩ := exec_next h
    rfl
  · rintro rfl
    obtain ⟨top, rest, hs, rfl⟩ := exec_next h
    exact ⟨top, hs⟩
  · refine exec_sameAt .stack h fun hw => ?_
    rcases mayWrite_stack.mp hw with rfl | ⟨nnn, rfl⟩
    · exact hr rfl
    · exact hc nnn rfl

/-- Settles O23: the pixels and `dirty` have only `CLS` and `DRW` as writers. -/
theorem onlyClsAndDrwTouchTheFrame : Obligations.OnlyClsAndDrwTouchTheFrame := by
  intro i s t h hcls hdrw
  have hother : ¬ (i = .cls ∨ ∃ a b n, i = .drw a b n) := by
    rintro (rfl | ⟨a, b, n, rfl⟩)
    · exact hcls rfl
    · exact hdrw a b n rfl
  exact ⟨fun x y => exec_sameAt (.pixel x y) h (mt mayWrite_pixel.mp hother),
    exec_sameAt .dirty h (mt mayWrite_dirty.mp hother)⟩

/-- Settles O24: the keys, the parameters and `faulted` have no writer, the draw counter has `RND` alone. -/
theorem noInstructionWritesKeysOrParameters : Obligations.NoInstructionWritesKeysOrParameters := by
  intro i s t h
  refine ⟨exec_isPressed h, exec_config h, exec_faulted h, fun hr => exec_sameAt .draws h fun hw => ?_⟩
  obtain ⟨x, kk, rfl⟩ := mayWrite_draws.mp hw
  exact hr x kk rfl

/-- Settles O25: a component that changed has the instruction among its writers. -/
theorem indexAndTimersHaveTheirWriters : Obligations.IndexAndTimersHaveTheirWriters := by
  intro i s t h
  have hwriter (c : Component) (hc : ¬ SameAt s t c) : MayWrite s i c :=
    not_not.mp (mt (exec_sameAt c h) hc)
  exact ⟨fun hi => mayWrite_index.mp (hwriter .index hi), fun hd => mayWrite_delay.mp (hwriter .delay hd),
    fun hs => mayWrite_sound.mp (hwriter .sound hs)⟩

/-- Settles O26: the writers of a register are its destination and, for `VF`, the flag. -/
theorem registersChangeOnlyAsDestinationOrFlag : Obligations.RegistersChangeOnlyAsDestinationOrFlag := by
  intro i s t r h hd hf
  refine exec_sameAt (.reg r) h fun hw => ?_
  rcases mayWrite_reg.mp hw with hdest | hflag
  · rw [hd] at hdest; cases hdest
  · exact hf hflag

end Sys2Proof.Machine
end

section
/-! PROOFS. Two canonical memories that read alike are the same data. -/

namespace Sys2Proof.Machine

/-- In a canonical memory a cell is listed exactly if its address reads as its byte and that byte is not the
reset contents. -/
theorem mem_iff_reads {c : Config} {m : Memory} (h : Memory.wf c m) {p : Host.Cell} :
    p ∈ m ↔ (Memory.lookup m p.1).getD (c.initialByte p.1) = p.2 ∧ p.2 ≠ c.initialByte p.1 := by
  constructor
  · intro hp
    rw [lookup_of_mem h.1 hp]
    exact ⟨rfl, (h.2 p hp).2⟩
  · rintro ⟨hr, hne⟩
    cases hl : Memory.lookup m p.1 with
    | none => rw [hl] at hr; exact absurd hr.symm hne
    | some v => rw [hl] at hr; cases hr; exact mem_of_lookup hl

/-- Settles O18: both memories list the same cells, in rising order of their addresses. -/
theorem canonicalMemoriesThatReadAlikeAreEqual : Obligations.CanonicalMemoriesThatReadAlikeAreEqual := by
  intro c m m' h h' hreads
  have hmem (p : Host.Cell) : p ∈ m ↔ p ∈ m' := by rw [mem_iff_reads h, mem_iff_reads h', hreads]
  exact List.Pairwise.eq_of_mem_iff (r := InvImage (· < ·) Prod.fst) h.1 h'.1 hmem

end Sys2Proof.Machine
end

section
/-! PROOFS. The invariant: every step, every transaction and so every run keeps it (R36, R45, R130, R131, R145,
R264). -/

namespace Sys2Proof.Machine

variable {s t : State}

/-! ### Memory and stack after an instruction -/

/-- An instruction leaves the memory, or stores bytes at `I` that end inside the address space. -/
theorem completes_mem {i : Instr} (h : Completes s t i) : t.mem = s.mem ∨
    ∃ bs : List Byte, s.i.toNat + bs.length ≤ memSize ∧
      t.mem = Memory.writeBytes s.config s.mem s.i.toNat bs := by
  cases i with
  | ldBX x => obtain ⟨hin, rfl⟩ := h; exact .inr ⟨decimalDigits (s.reg x), hin, rfl⟩
  | ldMemX x =>
    obtain ⟨hin, rfl⟩ := h
    exact .inr ⟨s.regBlock x, (length_regBlock s x).symm ▸ hin, rfl⟩
  | ret => obtain ⟨_, _, _, rfl⟩ := h; exact .inl rfl
  | call _ | drw _ _ _ | ldXMem _ => obtain ⟨_, rfl⟩ := h; exact .inl rfl
  | ldXK _ => obtain ⟨_, rfl⟩ | ⟨_, _, rfl⟩ := h <;> exact .inl rfl
  | _ => cases h; exact .inl rfl

theorem exec_mem_wf {i : Instr} (h : exec i s = .next t) (hm : Memory.wf s.config s.mem) :
    Memory.wf t.config t.mem := by
  rw [exec_config h]
  rcases completes_mem (exec_next h) with heq | ⟨bs, hin, heq⟩
  · rwa [heq]
  · rw [heq]; exact writeBytes_wf hm hin

/-- The stack after an instruction: as before, with `PC` pushed where there is room, or popped. -/
theorem exec_stack_cases {i : Instr} (h : exec i s = .next t) :
    t.stack = s.stack ∨ (s.stackFull = false ∧ t.stack = s.pc :: s.stack) ∨
      ∃ top, s.stack = top :: t.stack := by
  by_cases hw : MayWrite s i .stack
  · rcases mayWrite_stack.mp hw with rfl | ⟨nnn, rfl⟩
    · exact .inr (.inr ((onlyCallAndRetMoveTheStack _ s t h).2.1 rfl))
    · exact .inr (.inl ⟨(exec_next h).1, (onlyCallAndRetMoveTheStack _ s t h).1 ⟨nnn, rfl⟩⟩)
  · exact .inl (exec_sameAt .stack h hw)

theorem lt_depth_of_not_stackFull {d : Nat} (h : s.stackFull = false) (hd : s.config.stackDepth = some d) :
    s.stack.length < d := by
  simpa [State.stackFull, hd] using h

/-! ### The refusing faults -/

/-- The parameters allow the fault: `STRICT_DECODE` for `DecodeUnsettled`, the policy for `AliasUnsettled`
(R114, R203); the other three need none. -/
def Fault.AllowedBy (c : Config) : Fault → Prop
  | .decodeUnsettled _ => c.strictDecode = true
  | .aliasUnsettled _ => c.vfAliasPolicy = .fault
  | .memRange _ | .stackOverflow _ | .stackUnderflow _ => True

theorem exec_fault_allowed {i : Instr} {f : Fault} (h : exec i s = .fault f) : f.AllowedBy s.config := by
  obtain ⟨hp, _, rfl⟩ | ⟨_, _, _, rfl⟩ | ⟨_, _, rfl⟩ | ⟨rfl, _⟩ := exec_fault h
  · exact hp
  all_goals trivial

theorem instructionStep_fault_allowed {f : Fault} (h : instructionStep s = .fault f) :
    f.AllowedBy s.config := by
  rcases instructionStep_cases s with ⟨_, he⟩ | ⟨_, ⟨hstrict, _⟩, he⟩ | ⟨_, _, he⟩
  · rw [he] at h; cases h; trivial
  · rw [he] at h; cases h; exact hstrict
  · rw [he] at h; exact exec_fault_allowed (runInstr_fault h)

/-! ### The step -/

theorem inv_takeFault {f : Fault} (h : s.Inv) (hf : f.AllowedBy s.config) : (s.takeFault f).Inv where
  memory := h.memory
  depth := h.depth
  returns := h.returns
  clean := h.clean
  strict w hw := by cases hw; exact hf
  aliased w hw := by cases hw; exact hf

theorem exec_depth {i : Instr} (h : s.Inv) (hx : exec i s = .next t) (d : Nat)
    (hd : s.config.stackDepth = some d) : t.stack.length ≤ d := by
  have hold := h.depth d hd
  rcases exec_stack_cases hx with hs | ⟨hroom, hs⟩ | ⟨top, hs⟩
  · rwa [hs]
  · rw [hs]; exact lt_depth_of_not_stackFull hroom hd
  · rw [hs, List.length_cons] at hold; omega

theorem exec_returns {i : Instr} (h : s.Inv) (hpc : s.pc.toNat + 2 ≤ memSize) (hx : exec i s = .next t) :
    ∀ w ∈ t.stack, w.toNat + 2 ≤ memSize := by
  intro w hw
  rcases exec_stack_cases hx with hs | ⟨_, hs⟩ | ⟨top, hs⟩
  · exact h.returns w (hs ▸ hw)
  · rw [hs] at hw
    rcases List.mem_cons.mp hw with rfl | hw
    · exact hpc
    · exact h.returns w hw
  · exact h.returns w (hs ▸ List.mem_cons_of_mem top hw)

/-- A completed step keeps the invariant: the address a `CALL` pushes has just been fetched from. -/
theorem inv_of_exec {i : Instr} (h : s.Inv) (hs : s.Executes) (hx : exec i s = .next t) :
    (t.settleMode i).finishUpdate.Inv := by
  have hf : (t.settleMode i).finishUpdate.faulted = none := by
    simp [finishUpdate_eq, exec_faulted hx, hs.live]
  exact {
    memory := by simpa [finishUpdate_eq] using exec_mem_wf hx h.memory
    depth := by simpa [finishUpdate_eq, exec_config hx] using exec_depth h hx
    returns := by simpa [finishUpdate_eq] using exec_returns h hs.fetched hx
    clean := rfl
    strict := fun w hw => by rw [hf] at hw; cases hw
    aliased := fun w hw => by rw [hf] at hw; cases hw }

/-- Settles O15, by what a step can be: nothing, a fault taken, or a completed instruction. -/
theorem everyStepKeepsTheInvariant : Obligations.EveryStepKeepsTheInvariant := by
  intro s t h hstep
  obtain ⟨f, _, rfl⟩ | ⟨f, _, hf, rfl⟩ | ⟨u, hs, hx, rfl⟩ := step_cases hstep
  · exact h
  · exact inv_takeFault h (instructionStep_fault_allowed hf)
  · exact inv_of_exec h hs hx

/-! ### The other transactions and the runs -/

theorem inv_construct (c : Config) : (State.construct c).Inv where
  memory := nil_wf c
  depth _ _ := Nat.zero_le _
  returns _ hw := by cases hw
  clean := rfl
  strict _ hw := by cases hw
  aliased _ hw := by cases hw

theorem inv_hostReset (s : State) : s.hostReset.Inv :=
  have h := inv_construct s.config
  ⟨h.memory, h.depth, h.returns, h.clean, h.strict, h.aliased⟩

theorem inv_setKey (h : s.Inv) (k : Key) (pressed : Bool) : (s.setKey k pressed).Inv :=
  ⟨h.memory, h.depth, h.returns, h.clean, h.strict, h.aliased⟩

theorem inv_keyEvent (h : s.Inv) (e : Nat) (pressed : Bool) : (s.keyEvent e pressed).Inv := by
  unfold State.keyEvent
  split
  · exact h
  · exact inv_setKey h _ pressed

/-- A load keeps the invariant: what it stores is cut to `PROG_MAX` bytes, so it ends inside the memory. -/
theorem inv_load (h : s.Inv) (p : LoadArgument) : (s.load p).Inv := by
  cases p with
  | loadFailed => exact h
  | program bytes =>
    have hin : progBase + (bytes.take progMax).length ≤ memSize :=
      Nat.add_le_add_left (List.length_take_le progMax bytes) progBase
    exact ⟨writeBytes_wf h.memory hin, h.depth, h.returns, h.clean, h.strict, h.aliased⟩

theorem inv_transact {tr : Transaction} (h : s.Inv) (ht : transact tr s = .next t) : t.Inv := by
  cases tr with
  | update => exact everyStepKeepsTheInvariant s t h ht
  | keyEvent e pressed => cases ht; exact inv_keyEvent h e pressed
  | load p => cases ht; exact inv_load h p
  | reset => cases ht; exact inv_hostReset s

theorem inv_runTransactions {ts : List Transaction} (h : s.Inv) (hr : runTransactions ts s = .next t) :
    t.Inv := by
  induction ts generalizing s with
  | nil => cases hr; exact h
  | cons tr ts ih =>
    rw [runTransactions_cons, andThen_eq_next] at hr
    obtain ⟨u, ht, hr⟩ := hr
    exact ih (inv_transact h ht) hr

/-- Settles O16: construction meets the invariant and every transaction keeps it. -/
theorem everyRunKeepsTheInvariant : Obligations.EveryRunKeepsTheInvariant :=
  fun c _ _ hr => inv_runTransactions (inv_construct c) hr

end Sys2Proof.Machine
end

section
/-! PROOFS. A run has no end of its own (R130, R147): no instruction is refused, so every transaction answers a
state, and the finite and the infinite form of a run agree. -/

namespace Sys2Proof.Machine

/-! ### No refusal -/

theorem afterRead_ne_refused {r : Except Fault (List Byte)} {k : List Byte → Result} {e : Refusal}
    (hk : ∀ bytes, k bytes ≠ .refused e) : afterRead r k ≠ .refused e := by
  cases r with
  | ok bytes => exact hk bytes
  | error f => exact nofun

theorem afterWrite_ne_refused {r : Except Fault State} {k : State → Result} {e : Refusal}
    (hk : ∀ t, k t ≠ .refused e) : afterWrite r k ≠ .refused e := by
  cases r with
  | ok t => exact hk t
  | error f => exact nofun

theorem guardAlias_ne_refused {s : State} {a : Bool} {w : Word} {k : Result} {e : Refusal}
    (hk : k ≠ .refused e) : guardAlias s a w k ≠ .refused e := by
  unfold guardAlias
  split
  · exact nofun
  · exact hk

theorem exec_ne_refused (i : Instr) (s : State) (e : Refusal) : exec i s ≠ .refused e := by
  cases i with
  | ret => simp only [exec, execRet]; split <;> exact nofun
  | call nnn => simp only [exec, execCall]; split <;> exact nofun
  | ldXK x => simp only [exec, execLdXK]; split <;> exact nofun
  | addXY _ _ | subXY _ _ | shr _ _ | subnXY _ _ | shl _ _ | addIX _ => exact guardAlias_ne_refused nofun
  | drw x y n => exact guardAlias_ne_refused (afterRead_ne_refused nofun)
  | ldXMem x => exact afterRead_ne_refused nofun
  | ldBX _ | ldMemX _ => exact afterWrite_ne_refused nofun
  | _ => exact nofun

theorem runInstr_ne_refused (i : Instr) (s : State) (e : Refusal) : runInstr i s ≠ .refused e := by
  unfold runInstr
  cases hx : exec i s with
  | refused r => exact absurd hx (exec_ne_refused i s r)
  | next t => exact nofun
  | fault f => exact nofun

theorem instructionStep_ne_refused (s : State) (e : Refusal) : instructionStep s ≠ .refused e := by
  rcases instructionStep_cases s with ⟨_, h⟩ | ⟨_, _, h⟩ | ⟨_, _, h⟩ <;> rw [h]
  · exact nofun
  · exact nofun
  · exact runInstr_ne_refused _ s e

/-! ### Every transaction answers -/

theorem update_total (s : State) : ∃ t o, update s = .next (t, o) := by
  cases hf : s.faulted with
  | some f => exact ⟨_, _, update_faulted hf⟩
  | none =>
    cases hi : instructionStep s with
    | next t => exact ⟨_, _, update_next hf hi⟩
    | fault f => exact ⟨_, _, update_fault hf hi⟩
    | refused e => exact absurd hi (instructionStep_ne_refused s e)

theorem transact_total (tr : Transaction) (s : State) : ∃ t, transact tr s = .next t := by
  cases tr with
  | update =>
    obtain ⟨t, o, h⟩ := update_total s
    exact ⟨t, step_of_update h⟩
  | keyEvent e pressed => exact ⟨_, rfl⟩
  | load p => exact ⟨_, rfl⟩
  | reset => exact ⟨_, rfl⟩

/-! ### The first transactions of an infinite run -/

theorem runTransactions_singleton (tr : Transaction) (s : State) : runTransactions [tr] s = transact tr s := by
  rw [runTransactions_cons]
  cases transact tr s <;> rfl

section

variable (inputs : Nat → Transaction) (s : State)

theorem runState_total (n : Nat) : ∃ t, runState inputs s n = .next t := by
  induction n with
  | zero => exact ⟨s, rfl⟩
  | succ n ih =>
    obtain ⟨t, ht⟩ := ih
    rw [runState_succ, ht]
    exact transact_total (inputs n) t

theorem runReport_of_runState {n : Nat} {t : State} (h : runState inputs s n = .next t) :
    runReport inputs s n = report (inputs n) t := by rw [runReport, h, andThen_next]

/-- The infinite run's state is that of its first transactions as a finite run. -/
theorem runTransactions_range (n : Nat) :
    runTransactions ((List.range n).map inputs) s = runState inputs s n := by
  induction n with
  | zero => rfl
  | succ n ih =>
    rw [List.range_succ, List.map_append, runTransactions_append, ih, runState_succ]
    cases runState inputs s n with
    | next t => rw [andThen_next, andThen_next, List.map_singleton, runTransactions_singleton]
    | fault f => rfl
    | refused e => rfl

/-- The first `n` transactions as a finite run answer the infinite run's first `n` reports. -/
theorem reports_range (n : Nat) : ∃ rs, reports ((List.range n).map inputs) s = .next rs ∧ rs.length = n ∧
    ∀ k r, rs[k]? = some r → runReport inputs s k = .next r := by
  induction n with
  | zero => exact ⟨[], rfl, rfl, fun k r hk => by simp at hk⟩
  | succ n ih =>
    obtain ⟨rs, hrs, hlen, hall⟩ := ih
    obtain ⟨t, ht⟩ := runState_total inputs s n
    obtain ⟨u, hu⟩ := transact_total (inputs n) t
    obtain ⟨o, hr, _⟩ := report_of_transact hu
    refine ⟨rs ++ [⟨u, o⟩], ?_, by simp [hlen], fun k r hk => ?_⟩
    · rw [List.range_succ, List.map_append, reports_append, hrs, runTransactions_range, ht]
      simp [reports, hr]
    · rcases Nat.lt_trichotomy k n with hlt | rfl | hgt
      · exact hall k r (by rwa [List.getElem?_append_left (hlen ▸ hlt)] at hk)
      · rw [List.getElem?_append_right hlen.le, hlen, Nat.sub_self] at hk
        cases hk
        rw [runReport_of_runState inputs s ht, hr]
      · rw [List.getElem?_eq_none (by simp; omega)] at hk
        cases hk

end

/-- Settles O60: the run goes on as every transaction answers, and its first `n` reports are those of the finite
run of its first `n` transactions. -/
theorem everyRunGoesOnAndReportsEachTransaction : Obligations.EveryRunGoesOnAndReportsEachTransaction := by
  intro inputs s n
  obtain ⟨t, ht⟩ := runState_total inputs s n
  obtain ⟨u, hu⟩ := transact_total (inputs n) t
  obtain ⟨o, hr, hout, hnone⟩ := report_of_transact hu
  obtain ⟨rs, hrs, hlen, hall⟩ := reports_range inputs s n
  refine ⟨t, u, o, rs, ht, hu, ?_, ?_, hout, hnone, ?_, hrs, hlen, hall⟩
  · rw [runState_succ, ht, andThen_next, hu]
  · rw [runReport_of_runState inputs s ht, hr]
  · rw [runTransactions_range, ht]

end Sys2Proof.Machine
end

section
/-! SUPPORT. Memory as instructions use it (spec/20_memory.md R73, R74, R78): the word of two bytes, the bytes of a
read and of a store, the addresses an instruction can write, and the register dump as one step. -/

namespace Sys2Proof

/-! ### The word of two bytes (R78, R100) -/

theorem toNat_wordOfBytes (hi lo : Byte) : (wordOfBytes hi lo).toNat = 256 * hi.toNat + lo.toNat := by
  have happ : (wordOfBytes hi lo).toNat = hi.toNat <<< 8 ||| lo.toNat := BitVec.toNat_append hi lo
  rw [happ, ← Nat.shiftLeft_add_eq_or_of_lt lo.isLt, Nat.shiftLeft_eq, Nat.mul_comm]

theorem decode_truncated {bytes : List Byte} (h : bytes.length < 2) : decode bytes = .error .truncated := by
  match bytes, h with
  | [], _ | [_], _ => rfl

end Sys2Proof

namespace Sys2Proof.Machine

variable {s t : State}

/-! ### The addressed bytes -/

theorem inBytes_byte {a n b : Nat} : InBytes a n (.byte b) ↔ a ≤ b ∧ b < a + n := by
  constructor
  · rintro ⟨k, hk, hb⟩
    cases hb
    omega
  · rintro ⟨hle, hlt⟩
    exact ⟨b - a, by omega, by rw [Nat.add_sub_cancel' hle]⟩

theorem readByte_storeBytes_within {a k : Nat} {bs : List Byte} (h : k < bs.length) :
    (s.storeBytes a bs).readByte (a + k) = bs.getD k 0 := by
  rw [readByte_storeBytes, if_pos (by omega), Nat.add_sub_cancel_left]

/-- A stored register block holds each of its registers at the register's own offset (R234). -/
theorem readByte_storeBytes_regBlock {x q : Reg} (a : Nat) (h : q.val ≤ x.val) :
    (s.storeBytes a (s.regBlock x)).readByte (a + q.val) = s.reg q := by
  rw [readByte_storeBytes_within (by rw [length_regBlock]; omega), getD_regBlock s x q h]

/-! ### The writers of a byte -/

theorem mayWrite_byte {i : Instr} {a : Nat} : MayWrite s i (.byte a) ↔
    (∃ x, i = .ldBX x ∧ s.i.toNat ≤ a ∧ a < s.i.toNat + 3) ∨
    (∃ x, i = .ldMemX x ∧ s.i.toNat ≤ a ∧ a < s.i.toNat + (x.val + 1)) := by
  cases i <;> simp [MayWrite, inBytes_byte]

/-! ### The register dump as a step -/

theorem exec_ldMemX_within {x : Reg} (h : s.i.toNat + (x.val + 1) ≤ memSize) :
    exec (.ldMemX x) s = .next ((s.storeBytes s.i.toNat (s.regBlock x)).setI (s.indexPastBlock x)).advance := by
  have hw : s.memWrite s.dataAddress (s.regBlock x) = .ok (s.storeBytes s.i.toNat (s.regBlock x)) :=
    memWrite_ok (.inr (by rwa [length_regBlock]))
  simp only [exec, execLdMemX, hw, afterWrite]

/-- A step that executes a completed instruction is that instruction with the mode settled, the tick and the frame
output (R131, R132). -/
theorem step_of_exec (hs : s.Executes) (hx : exec (decodeWord s.wordAtPc) s = .next t) :
    step s = .next (t.settleMode (decodeWord s.wordAtPc)).finishUpdate := by
  have hrun : instructionStep s = .next (t.settleMode (decodeWord s.wordAtPc)) := by
    rw [instructionStep_executes hs, runInstr, hx]
  exact step_of_update (update_next hs.live hrun)

/-- Past a fetched instruction `PC` does not wrap. -/
theorem toNat_advance_pc (h : s.pc.toNat + 2 ≤ memSize) : s.advance.pc.toNat = s.pc.toNat + 2 :=
  BitVec.toNat_add_of_lt (Nat.lt_of_le_of_lt h (by decide))

/-- The fetch after a step that completed an instruction reads what the instruction left. -/
theorem fetch_finishUpdate_settleMode (i : Instr) (h : t.pc.toNat + 2 ≤ memSize) :
    (t.settleMode i).finishUpdate.fetch = .ok t.wordAtPc := by
  have hpc : (t.settleMode i).finishUpdate.pc = t.pc := by simp [finishUpdate_eq]
  have hword : (t.settleMode i).finishUpdate.wordAtPc = t.wordAtPc := by
    simp [State.wordAtPc, finishUpdate_eq]
  rw [fetch_ok (by rwa [hpc]), hword]

end Sys2Proof.Machine
end

section
/-! PROOFS. Memory (spec/20_memory.md): who writes it, what the access primitives answer, and that the fetch reads
the same bytes an instruction stored. -/

namespace Sys2Proof.Machine

/-- Settles O27: a byte that changed has the instruction among its writers. -/
theorem onlyStoresWriteMemory : Obligations.OnlyStoresWriteMemory :=
  fun _ _ _ a h hne => mayWrite_byte.mp (not_not.mp (mt (exec_sameAt (.byte a) h) hne))

/-- Settles O51: the two registers lie at the next `PC` in the stored block, and the end of the update moves
neither `PC` nor a byte. -/
theorem storedWordIsFetchedNext : Obligations.StoredWordIsFetchedNext := by
  intro s x p q hs hdec hin hpq hqx hnext
  have hx := exec_ldMemX_within hin
  have hpc := toNat_advance_pc (s := (s.storeBytes s.i.toNat (s.regBlock x)).setI (s.indexPastBlock x)) hs.fetched
  rw [State.setI_pc, State.storeBytes_pc, ← hnext] at hpc
  refine ⟨_, step_of_exec hs (hdec ▸ hx), ?_⟩
  rw [fetch_finishUpdate_settleMode _ (by omega), State.wordAtPc, hpc, Nat.add_assoc, ← hpq]
  simp only [State.advance_readByte, State.setI_readByte]
  rw [readByte_storeBytes_regBlock _ (by omega), readByte_storeBytes_regBlock _ hqx]

/-- Settles O6: a list with fewer than two bytes is truncated, and the first two of any other make the word. -/
theorem decoderConsumesTwoBytes : Obligations.DecoderConsumesTwoBytes := by
  refine fun bytes => ⟨decode_truncated, fun hi lo rest h => ⟨wordOfBytes hi lo, toNat_wordOfBytes hi lo, ?_⟩⟩
  rw [h, decode]

/-- Settles O29, by the two answers of `MemRead`. -/
theorem memReadAnswersTheAddressedBytes : Obligations.MemReadAnswersTheAddressedBytes := by
  refine fun s a n => ⟨?_, memRead_error, fun hin => ⟨_, memRead_ok (.inr hin), by simp, fun k hk => ?_⟩⟩
  · rintro rfl
    exact memRead_ok (.inl rfl)
  · simp [hk]

/-- Settles O30, by the two answers of `MemWrite`; a store reads back as written and keeps the canonical form. -/
theorem memWriteChangesOnlyTheAddressedBytes : Obligations.MemWriteChangesOnlyTheAddressedBytes := by
  refine fun s a bytes => ⟨?_, fun hne => memWrite_error (mt List.length_eq_zero_iff.mp hne),
    fun hin => ⟨s.storeBytes a bytes, memWrite_ok (.inr hin), fun k hk => ?_, ?_, fun hwf => ?_⟩⟩
  · rintro rfl
    exact memWrite_ok (.inl rfl)
  · exact readByte_storeBytes_within hk
  · exact changesOnly_storeBytes fun _ => id
  · exact writeBytes_wf hwf hin

end Sys2Proof.Machine
end

section
/-! SUPPORT. The decoder by the fields of the word (spec/30_encoding.md R101, R110 to R114): which words are
unmatched, which bits a decoded instruction keeps, and which row of the opcode map it is in. -/

namespace Sys2Proof

variable {w v : Word}

/-! ### The unmatched words (R113) -/

/-- The low nibbles that the 8-family matches (R113), beside `fFamilyCodes`. -/
def eightFamilyCodes : List (BitVec 4) := [0x0, 0x1, 0x2, 0x3, 0x4, 0x5, 0x6, 0x7, 0xE]

/-- A nibble that is none of the first fifteen is the last. -/
theorem nibble_eq_F {op : BitVec 4}
    (h : op ∉ [0x0#4, 0x1#4, 0x2#4, 0x3#4, 0x4#4, 0x5#4, 0x6#4, 0x7#4, 0x8#4, 0x9#4, 0xA#4, 0xB#4, 0xC#4, 0xD#4,
      0xE#4]) : op = 0xF := by
  revert op; decide

theorem mem_unmatched8_iff {n : BitVec 4} :
    n ∈ [0x8#4, 0x9#4, 0xA#4, 0xB#4, 0xC#4, 0xD#4, 0xF#4] ↔ n ∉ eightFamilyCodes := by
  revert n; decide

theorem unmatchedWord_iff : unmatchedWord w = true ↔
    (fieldOp w = 0x0 ∧ fieldKK w ≠ 0xE0 ∧ fieldKK w ≠ 0xEE) ∨
    (fieldOp w = 0x8 ∧ fieldN w ∉ eightFamilyCodes) ∨
    (fieldOp w = 0xE ∧ fieldKK w ≠ 0x9E ∧ fieldKK w ≠ 0xA1) ∨
    (fieldOp w = 0xF ∧ fieldKK w ∉ fFamilyCodes) := by
  rw [← mem_unmatched8_iff]
  unfold unmatchedWord
  simp [fieldOp, fieldKK, fieldN, and_assoc, or_assoc]

theorem decode0_eq_nopUnmatched_iff :
    decode0 w = .nopUnmatched v ↔ w = v ∧ fieldKK w ≠ 0xE0 ∧ fieldKK w ≠ 0xEE := by
  unfold decode0
  split <;> simp_all

theorem decode8_eq_nopUnmatched_iff : decode8 w = .nopUnmatched v ↔ w = v ∧ fieldN w ∉ eightFamilyCodes := by
  unfold decode8 eightFamilyCodes
  split <;> simp_all

theorem decodeE_eq_nopUnmatched_iff :
    decodeE w = .nopUnmatched v ↔ w = v ∧ fieldKK w ≠ 0x9E ∧ fieldKK w ≠ 0xA1 := by
  unfold decodeE
  split <;> simp_all

theorem decodeF_eq_nopUnmatched_iff : decodeF w = .nopUnmatched v ↔ w = v ∧ fieldKK w ∉ fFamilyCodes := by
  unfold decodeF fFamilyCodes
  split <;> simp_all

/-- The default arm holds exactly the unmatched words, each with its own word. -/
theorem decodeWord_eq_nopUnmatched_iff :
    decodeWord w = .nopUnmatched v ↔ w = v ∧ unmatchedWord w = true := by
  rw [unmatchedWord_iff]
  unfold decodeWord
  split
  case h_1 hop => simp [hop, decode0_eq_nopUnmatched_iff]
  case h_9 hop => simp [hop, decode8_eq_nopUnmatched_iff]
  case h_15 hop => simp [hop, decodeE_eq_nopUnmatched_iff]
  case h_16 =>
    have hop : fieldOp w = 0xF := nibble_eq_F (by simp_all)
    simp [hop, decodeF_eq_nopUnmatched_iff]
  all_goals simp [*]

theorem decodeWord_of_unmatched (h : unmatchedWord w = true) : decodeWord w = .nopUnmatched w :=
  decodeWord_eq_nopUnmatched_iff.mpr ⟨rfl, h⟩

/-- What a word decodes to is well formed: a default arm carries the unmatched word it came from. -/
theorem decodeWord_wf (w : Word) : (decodeWord w).wf = true := by
  cases h : decodeWord w with
  | nopUnmatched v =>
    obtain ⟨rfl, hw⟩ := decodeWord_eq_nopUnmatched_iff.mp h
    exact hw
  | _ => rfl

/-! ### Decoding what was encoded -/

theorem decodeWord_encode {i : Instr} (h : i.wf = true) : decodeWord (encode i) = i := by
  cases i with
  | nopUnmatched w => exact decodeWord_of_unmatched h
  | cls | ret => rfl
  | ldXY _ _ | orXY _ _ | andXY _ _ | xorXY _ _ | addXY _ _ | subXY _ _ | shr _ _ | subnXY _ _ | shl _ _ =>
    simp [encode, decodeWord, decode8]
  | skp _ | sknp _ => simp [encode, decodeWord, decodeE]
  | ldXDT _ | ldXK _ | ldDTX _ | ldSTX _ | addIX _ | ldFX _ | ldBX _ | ldMemX _ | ldXMem _ =>
    simp [encode, decodeWord, decodeF]
  | _ => simp [encode, decodeWord]

theorem decode_bytesOfWord (w : Word) : decode (bytesOfWord w) = .ok (decodeWord w, []) := by
  rw [bytesOfWord, decode, wordOfBytes_bytesOfWord]

/-! ### Encoding what was decoded -/

/-- The word with the bits an instruction does not keep (log entry 11) cleared. -/
def Instr.keptBits : Instr → Word → Word
  | .cls, w | .ret, w => w &&& 0xF0FF
  | .seXY _ _, w | .sneXY _ _, w => w &&& 0xFFF0
  | _, w => w

theorem bits_maskHigh (k : Nat) (h : k < 16) : (0xFFF0 : Word).getLsbD k = decide (4 ≤ k) := by
  revert k; decide

theorem wordXYN_maskHigh (op : BitVec 4) (x y : Reg) (n : BitVec 4) :
    wordXYN op x y n &&& 0xFFF0 = wordXYN op x y 0 := by
  apply BitVec.eq_of_getLsbD_eq
  intro k hk
  rw [BitVec.getLsbD_and, bits_maskHigh k hk, getLsbD_wordXYN, getLsbD_wordXYN]
  by_cases h : k < 4
  · simp [h]
  · simp [h, Nat.not_lt.mp h]

variable {op n : BitVec 4} {kk : Byte}

theorem wordNNN_of_fields (hop : fieldOp w = op) : wordNNN op (fieldNNN w) = w := hop ▸ word_of_fieldNNN w

theorem wordXKK_of_fields (hop : fieldOp w = op) (hkk : fieldKK w = kk) : wordXKK op (fieldX w) kk = w :=
  hop ▸ hkk ▸ word_of_fieldKK w

theorem wordXYN_of_fields (hop : fieldOp w = op) (hn : fieldN w = n) :
    wordXYN op (fieldX w) (fieldY w) n = w := hop ▸ hn ▸ word_of_fields w

theorem wordXYN_zero_of_fields (hop : fieldOp w = op) :
    wordXYN op (fieldX w) (fieldY w) 0 = w &&& 0xFFF0 := by
  rw [← wordXYN_maskHigh op _ _ (fieldN w), wordXYN_of_fields hop rfl]

theorem encode_decode0 (hop : fieldOp w = 0x0) : encode (decode0 w) = (decode0 w).keptBits w := by
  unfold decode0
  split
  · exact ((and_maskTopLow_eq_iff w 0x0 0xE0).mpr ⟨hop, ‹_›⟩).symm
  · exact ((and_maskTopLow_eq_iff w 0x0 0xEE).mpr ⟨hop, ‹_›⟩).symm
  · rfl

theorem encode_decode8 (hop : fieldOp w = 0x8) : encode (decode8 w) = (decode8 w).keptBits w := by
  unfold decode8
  split
  case h_10 => rfl
  all_goals exact wordXYN_of_fields hop ‹_›

theorem encode_decodeE (hop : fieldOp w = 0xE) : encode (decodeE w) = (decodeE w).keptBits w := by
  unfold decodeE
  split
  case h_3 => rfl
  all_goals exact wordXKK_of_fields hop ‹_›

theorem encode_decodeF (hop : fieldOp w = 0xF) : encode (decodeF w) = (decodeF w).keptBits w := by
  unfold decodeF
  split
  case h_10 => rfl
  all_goals exact wordXKK_of_fields hop ‹_›

/-- Encoding a decoded word gives back the bits its instruction keeps. -/
theorem encode_decodeWord (w : Word) : encode (decodeWord w) = (decodeWord w).keptBits w := by
  unfold decodeWord
  split
  case h_1 => exact encode_decode0 ‹_›
  case h_9 => exact encode_decode8 ‹_›
  case h_15 => exact encode_decodeE ‹_›
  case h_16 => exact encode_decodeF (nibble_eq_F (by simp_all))
  case h_2 | h_3 | h_11 | h_12 => exact wordNNN_of_fields ‹_›
  case h_6 | h_10 => exact wordXYN_zero_of_fields ‹_›
  case h_14 => exact wordXYN_of_fields ‹_› rfl
  all_goals exact wordXKK_of_fields ‹_› rfl

theorem keptBits_eq_self {i : Instr} (hcls : i ≠ .cls) (hret : i ≠ .ret)
    (hxy : ∀ x y, i ≠ .seXY x y ∧ i ≠ .sneXY x y) : i.keptBits w = w := by
  cases i with
  | cls => exact absurd rfl hcls
  | ret => exact absurd rfl hret
  | seXY x y => exact absurd rfl (hxy x y).1
  | sneXY x y => exact absurd rfl (hxy x y).2
  | _ => rfl

/-! ### The rows of the opcode map (R105, R110) -/

/-- The first digits whose families are decoded by the low byte as well (R110). -/
def lowByteFamilies : List (BitVec 4) := [0x0, 0xE, 0xF]

/-- A row examines the top nibble alone, the top nibble and the low byte, or, in the 8-family, the top and the low
nibble. -/
theorem opcodeRows_mask : ∀ r ∈ opcodeRows,
    (r.mask = 0xF000 ∧ r.value = wordNNN (fieldOp r.value) 0 ∧
      fieldOp r.value ∉ lowByteFamilies ∧ fieldOp r.value ≠ 0x8) ∨
    (r.mask = 0xF0FF ∧ r.value = wordXKK (fieldOp r.value) 0 (fieldKK r.value) ∧ fieldOp r.value ≠ 0x8) ∨
    (r.mask = 0xF00F ∧ r.value = wordXYN 0x8 0 0 (fieldN r.value) ∧ fieldOp r.value = 0x8) := by
  decide

theorem opcodeRows_value_decodes : ∀ r ∈ opcodeRows, (decodeWord r.value).mnemonic = r.mnemonic := by decide

theorem opcodeRows_mnemonic_ne : ∀ r ∈ opcodeRows, r.mnemonic ≠ "NOP_UNMATCHED" := by decide

theorem opcodeRows_mnemonic_nodup : (opcodeRows.map OpcodeRow.mnemonic).Nodup := by decide

theorem opcodeRows_eq_of_mnemonic {r r' : OpcodeRow} (hr : r ∈ opcodeRows) (hr' : r' ∈ opcodeRows)
    (h : r.mnemonic = r'.mnemonic) : r = r' :=
  List.inj_on_of_nodup_map opcodeRows_mnemonic_nodup hr hr' h

theorem matchesWord_iff {r : OpcodeRow} : r.matchesWord w = true ↔ w &&& r.mask = r.value := beq_iff_eq

/-- The operation a word decodes to is decided by its top nibble, by its low byte in the families that examine it and
by its low nibble in the 8-family. -/
theorem mnemonic_decodeWord_congr (hop : fieldOp w = fieldOp v)
    (hkk : fieldOp v ∈ lowByteFamilies → fieldKK w = fieldKK v)
    (hn : fieldOp v = 0x8 → fieldN w = fieldN v) : (decodeWord w).mnemonic = (decodeWord v).mnemonic := by
  unfold decodeWord
  rw [hop]
  split
  case h_1 h => unfold decode0; rw [hkk (by simp [h, lowByteFamilies])]; split <;> rfl
  case h_9 h => unfold decode8; rw [hn h]; split <;> rfl
  case h_15 h => unfold decodeE; rw [hkk (by simp [h, lowByteFamilies])]; split <;> rfl
  case h_16 =>
    have h : fieldOp v = 0xF := nibble_eq_F (by simp_all)
    unfold decodeF; rw [hkk (by simp [h, lowByteFamilies])]; split <;> rfl
  all_goals rfl

/-- A word of a row decodes to the row's operation, as the row's own value does. -/
theorem mnemonic_decodeWord_of_matches {r : OpcodeRow} (hr : r ∈ opcodeRows) (h : r.matchesWord w = true) :
    (decodeWord w).mnemonic = r.mnemonic := by
  rw [matchesWord_iff] at h
  rw [← opcodeRows_value_decodes r hr]
  obtain ⟨hm, hv, hlow, h8⟩ | ⟨hm, hv, h8⟩ | ⟨hm, hv, h8⟩ := opcodeRows_mask r hr
  · have hop := (and_maskTop_eq_iff w _).mp (hm ▸ h.trans hv)
    exact mnemonic_decodeWord_congr hop (absurd · hlow) (absurd · h8)
  · obtain ⟨hop, hkk⟩ := (and_maskTopLow_eq_iff w _ _).mp (hm ▸ h.trans hv)
    exact mnemonic_decodeWord_congr hop (fun _ => hkk) (absurd · h8)
  · obtain ⟨hop, hn⟩ := (and_maskTopNibble_eq_iff w _ _).mp (hm ▸ h.trans hv)
    exact mnemonic_decodeWord_congr (hop.trans h8.symm) (fun hlow => absurd (h8 ▸ hlow) (by decide)) fun _ => hn

/-! ### Words of no row (R113) -/

theorem opcodeRows_top : ∀ op : BitVec 4, op ∉ lowByteFamilies → op ≠ 0x8 →
    ∃ r ∈ opcodeRows, r.mask = 0xF000 ∧ r.value = wordNNN op 0 := by decide

theorem opcodeRows_eight : ∀ n ∈ eightFamilyCodes,
    ∃ r ∈ opcodeRows, r.mask = 0xF00F ∧ r.value = wordXYN 0x8 0 0 n := by decide

theorem opcodeRows_F : ∀ kk ∈ fFamilyCodes,
    ∃ r ∈ opcodeRows, r.mask = 0xF0FF ∧ r.value = wordXKK 0xF 0 kk := by decide

section

variable (hno : ∀ r ∈ opcodeRows, r.matchesWord w = false)
include hno

theorem and_mask_ne_of_no_row {r : OpcodeRow} (hr : r ∈ opcodeRows) : w &&& r.mask ≠ r.value :=
  fun h => by simpa [hno r hr] using matchesWord_iff.mpr h

theorem fieldKK_ne_of_no_row (hop : fieldOp w = op)
    (hrow : ∃ r ∈ opcodeRows, r.mask = 0xF0FF ∧ r.value = wordXKK op 0 kk) : fieldKK w ≠ kk := by
  intro hkk
  obtain ⟨r, hr, hm, hv⟩ := hrow
  exact and_mask_ne_of_no_row hno hr (by rw [hm, hv, and_maskTopLow_eq_iff]; exact ⟨hop, hkk⟩)

theorem fieldN_not_mem_of_no_row (hop : fieldOp w = 0x8) : fieldN w ∉ eightFamilyCodes := by
  intro hn
  obtain ⟨r, hr, hm, hv⟩ := opcodeRows_eight _ hn
  exact and_mask_ne_of_no_row hno hr (by rw [hm, hv, and_maskTopNibble_eq_iff]; exact ⟨hop, rfl⟩)

theorem fieldOp_of_no_row : fieldOp w ∈ lowByteFamilies ∨ fieldOp w = 0x8 := by
  by_contra h
  obtain ⟨hlow, h8⟩ := not_or.mp h
  obtain ⟨r, hr, hm, hv⟩ := opcodeRows_top _ hlow h8
  exact and_mask_ne_of_no_row hno hr (by rw [hm, hv, and_maskTop_eq_iff])

theorem unmatchedWord_of_no_row : unmatchedWord w = true := by
  rw [unmatchedWord_iff]
  obtain hlow | hop := fieldOp_of_no_row hno
  · simp only [lowByteFamilies, List.mem_cons, List.not_mem_nil, or_false] at hlow
    obtain hop | hop | hop := hlow
    · exact .inl ⟨hop, fieldKK_ne_of_no_row hno hop (by decide), fieldKK_ne_of_no_row hno hop (by decide)⟩
    · exact .inr (.inr (.inl
        ⟨hop, fieldKK_ne_of_no_row hno hop (by decide), fieldKK_ne_of_no_row hno hop (by decide)⟩))
    · exact .inr (.inr (.inr ⟨hop, fun hkk => fieldKK_ne_of_no_row hno hop (opcodeRows_F _ hkk) rfl⟩))
  · exact .inr (.inl ⟨hop, fieldN_not_mem_of_no_row hno hop⟩)

end

theorem unmatchedWord_iff_no_row :
    unmatchedWord w = true ↔ ∀ r ∈ opcodeRows, r.matchesWord w = false := by
  refine ⟨fun h r hr => Bool.eq_false_iff.mpr fun hm => opcodeRows_mnemonic_ne r hr ?_, unmatchedWord_of_no_row⟩
  rw [← mnemonic_decodeWord_of_matches hr hm, decodeWord_of_unmatched h, Instr.mnemonic]

/-- A word whose operation is a row's is one of that row's words. -/
theorem matches_of_mnemonic_decodeWord {r : OpcodeRow} (hr : r ∈ opcodeRows)
    (h : (decodeWord w).mnemonic = r.mnemonic) : r.matchesWord w = true := by
  have hmatched : unmatchedWord w ≠ true := fun hw => opcodeRows_mnemonic_ne r hr (by
    rw [← h, decodeWord_of_unmatched hw, Instr.mnemonic])
  rw [Ne, unmatchedWord_iff_no_row] at hmatched
  push Not at hmatched
  obtain ⟨r', hr', hm⟩ := hmatched
  rw [Bool.ne_false_iff] at hm
  rwa [opcodeRows_eq_of_mnemonic hr hr' (by rw [← h, mnemonic_decodeWord_of_matches hr' hm])]

/-! ### The fields as numbers (R101) -/

theorem toNat_fieldOp (w : Word) : (fieldOp w).toNat = w.toNat / 4096 := by
  have := w.isLt
  simp only [fieldOp, BitVec.extractLsb'_toNat, Nat.shiftRight_eq_div_pow]
  omega

theorem toNat_fieldKK (w : Word) : (fieldKK w).toNat = w.toNat % 256 := by
  simp [fieldKK]

theorem toNat_fieldN (w : Word) : (fieldN w).toNat = w.toNat % 16 := by
  simp [fieldN]

/-- The decoder's test for the words of R114 is the rule. -/
theorem unsettledWord_iff : unsettledWord w = true ↔ Machine.UnsettledByRule w := by
  simp only [unsettledWord, Machine.UnsettledByRule, Bool.or_eq_true, Bool.and_eq_true, beq_iff_eq, bne_iff_ne,
    ne_eq, ← BitVec.toNat_inj, toNat_fieldOp, toNat_fieldKK, toNat_fieldN, BitVec.reduceToNat]
  omega

/-! ### How many words are unmatched (R113) -/

theorem fieldN_eq_of_fieldKK (h : fieldKK w = fieldKK v) : fieldN w = fieldN v := by
  have hkk := congrArg BitVec.toNat h
  rw [toNat_fieldKK, toNat_fieldKK] at hkk
  apply BitVec.eq_of_toNat_eq
  rw [toNat_fieldN, toNat_fieldN]
  omega

theorem unmatchedWord_congr (hop : fieldOp w = fieldOp v) (hkk : fieldKK w = fieldKK v) :
    unmatchedWord w = unmatchedWord v := by
  rw [Bool.eq_iff_iff, unmatchedWord_iff, unmatchedWord_iff, hop, hkk, fieldN_eq_of_fieldKK hkk]

/-- In a family, whether a word is unmatched repeats every 256 words. -/
theorem unmatchedWord_mod {d k : Nat} (hk : k < 4096) :
    unmatchedWord (BitVec.ofNat 16 (d * 4096 + k)) = unmatchedWord (BitVec.ofNat 16 (d * 4096 + k % 256)) := by
  apply unmatchedWord_congr <;> apply BitVec.eq_of_toNat_eq
  · rw [toNat_fieldOp, toNat_fieldOp, BitVec.toNat_ofNat, BitVec.toNat_ofNat]
    omega
  · rw [toNat_fieldKK, toNat_fieldKK, BitVec.toNat_ofNat, BitVec.toNat_ofNat]
    omega

theorem countP_range_mul (p : Nat → Bool) (a b : Nat) :
    (List.range (a * b)).countP (fun k => p (k % b)) = a * (List.range b).countP p := by
  induction a with
  | zero => simp
  | succ a ih =>
    have hlast : (List.range b).countP ((fun k => p (k % b)) ∘ (a * b + ·)) = (List.range b).countP p :=
      List.countP_congr fun k hk => by simp [Nat.mod_eq_of_lt (List.mem_range.mp hk)]
    rw [Nat.succ_mul, List.range_add, List.countP_append, List.countP_map, ih, hlast, Nat.succ_mul]

theorem countP_unmatchedWord (d : Nat) :
    ((List.range 4096).countP fun k => unmatchedWord (BitVec.ofNat 16 (d * 4096 + k))) =
      16 * (List.range 256).countP fun k => unmatchedWord (BitVec.ofNat 16 (d * 4096 + k)) := by
  rw [← countP_range_mul]
  exact List.countP_congr fun k hk => by rw [unmatchedWord_mod (List.mem_range.mp hk)]

end Sys2Proof
end

section
/-! PROOFS. The encoding (spec/30_encoding.md R100 to R115): decoder, encoder and opcode map agree, and what becomes
of the unmatched and the unsettled words. -/

namespace Sys2Proof.Machine

/-- Settles O1, instruction by instruction through the fields of its word; the two bytes make the word again. -/
theorem decodeOfEncodeIsIdentity : Obligations.DecodeOfEncodeIsIdentity := by
  intro i hi
  rw [decode_bytesOfWord, decodeWord_encode hi]
  exact ⟨rfl, rfl⟩

/-- Settles O2: a word is in a row exactly if it decodes to the row's operation, and the rows' names differ. -/
theorem everyWordDecodesToItsOneArm : Obligations.EveryWordDecodesToItsOneArm := by
  refine fun w => ⟨decodeWord_wf w,
    fun r hr => ⟨mnemonic_decodeWord_of_matches hr, matches_of_mnemonic_decodeWord hr⟩,
    fun r hr r' hr' h h' => opcodeRows_eq_of_mnemonic hr hr' ?_, ?_⟩
  · rw [← mnemonic_decodeWord_of_matches hr h, mnemonic_decodeWord_of_matches hr' h']
  · rw [← unmatchedWord_iff_no_row, decodeWord_eq_nopUnmatched_iff]
    exact and_iff_right rfl

/-- Settles O3, by the bits the decoded instruction keeps. -/
theorem reencodingLosesOnlyUnexaminedBits : Obligations.ReencodingLosesOnlyUnexaminedBits := by
  intro w
  rw [encode_decodeWord]
  refine ⟨?_, ?_, fun hcls hret hxy => ?_⟩
  · rintro (h | h) <;> rw [h, Instr.keptBits]
  · rintro x y (h | h) <;> rw [h, Instr.keptBits]
  · exact keptBits_eq_self hcls hret hxy

/-- Settles O4: the rows and the list by the fields of the word, the counts by the 256 low bytes of each family. -/
theorem unmatchedWordsOnlyAdvance : Obligations.UnmatchedWordsOnlyAdvance := by
  refine ⟨fun w => ?_, fun w => unmatchedWord_iff_no_row, fun w hw => ?_, ?_, ?_, ?_, ?_, fun w s => ?_⟩
  · rw [decodeWord_eq_nopUnmatched_iff]
    exact and_iff_right rfl
  · obtain ⟨h, _⟩ | ⟨h, _⟩ | ⟨h, _⟩ | ⟨h, _⟩ := unmatchedWord_iff.mp hw <;> simp [h]
  · exact (countP_unmatchedWord 0x0).trans (by decide +kernel)
  · exact (countP_unmatchedWord 0x8).trans (by decide +kernel)
  · exact (countP_unmatchedWord 0xE).trans (by decide +kernel)
  · exact (countP_unmatchedWord 0xF).trans (by decide +kernel)
  · exact ⟨s.advance, rfl, rfl, changesOnly_advance rfl⟩

/-- Strict decoding refuses a fetched word of R114 between fetch and execution. -/
theorem instructionStep_unsettled {s : State} (hpc : s.pc.toNat + 2 ≤ memSize)
    (hstrict : s.config.strictDecode = true) (hw : unsettledWord s.wordAtPc = true) :
    instructionStep s = .fault (.decodeUnsettled s.wordAtPc) := by
  unfold instructionStep
  rw [fetch_ok hpc]
  exact if_pos ⟨hstrict, hw⟩

/-- Settles O9: the decoder's test is the rule of R114, and a word that fails it is executed. -/
theorem strictDecodeRefusesTheListedWords : Obligations.StrictDecodeRefusesTheListedWords := by
  intro s hlive hpc
  refine ⟨fun hstrict hw => ?_, fun _ hw => ⟨hlive, hpc, fun h => hw (unsettledWord_iff.mp h.2)⟩,
    fun hlax => ⟨hlive, hpc, fun h => by simp [hlax] at h⟩⟩
  have hstep : instructionStep s = .fault (.decodeUnsettled s.wordAtPc) :=
    instructionStep_unsettled hpc hstrict (unsettledWord_iff.mpr hw)
  exact step_of_update (update_fault hlive hstep)

/-- Settles O12: an update ends in a next state, as no instruction is refused. -/
theorem everyUpdateAnswersAState : Obligations.EveryUpdateAnswersAState := by
  refine ⟨fun s => ?_, exec_ne_refused⟩
  obtain ⟨t, o, h⟩ := update_total s
  exact ⟨t, o, h, step_of_update h⟩

/-- Settles O5, by decoding each word. -/
theorem listedWordsDecode : Obligations.ListedWordsDecode := by
  unfold Obligations.ListedWordsDecode
  decide

end Sys2Proof.Machine
end

section
/-! SUPPORT. The update cycle (spec/40_engine.md): what a live step can answer, the cause of its fault, what the
other transactions leave unchanged, the waiting mode, and `PC` after an instruction. -/

namespace Sys2Proof

/-! ### The addresses a control transfer sets (R103, R160, R167) -/

theorem toNat_addressOperand (nnn : Addr12) : (Machine.addressOperand nnn).toNat = nnn.toNat :=
  BitVec.toNat_setWidth_of_le (by decide)

/-- The sum of `JP V0, nnn` does not wrap. -/
theorem toNat_addressOperand_add (nnn : Addr12) (b : Byte) :
    (Machine.addressOperand nnn + b.setWidth 16).toNat = nnn.toNat + b.toNat := by
  have hb : (b.setWidth 16).toNat = b.toNat := BitVec.toNat_setWidth_of_le (by decide)
  have hn := nnn.isLt
  have := b.isLt
  rw [BitVec.toNat_add_of_lt] <;> rw [toNat_addressOperand, hb]
  omega

/-! ### The word an alias fault records (R203) -/

/-- A VF-alias word is the encoding of its instruction, every bit of it (log entry 11). -/
theorem encode_decodeWord_of_namesFlag {w : Word} (h : (decodeWord w).namesFlag = true) :
    encode (decodeWord w) = w := by
  rw [encode_decodeWord]
  refine keptBits_eq_self ?_ ?_ fun x y => ⟨?_, ?_⟩
  all_goals intro hi; rw [hi] at h; cases h

end Sys2Proof

namespace Sys2Proof.Machine

variable {s t : State} {i : Instr} {f : Fault}

/-! ### The update of a state that executes (R131, R132) -/

theorem update_of_exec (hs : s.Executes) (hx : exec (decodeWord s.wordAtPc) s = .next t) :
    update s = .next ((t.settleMode (decodeWord s.wordAtPc)).finishUpdate,
      (t.settleMode (decodeWord s.wordAtPc)).stepOutputs) :=
  update_next hs.live (by rw [instructionStep_executes hs, runInstr, hx])

theorem update_of_exec_fault (hs : s.Executes) (hx : exec (decodeWord s.wordAtPc) s = .fault f) :
    update s = .next (s.takeFault f, (s.takeFault f).quietOutputs) :=
  update_fault hs.live (by rw [instructionStep_executes hs, runInstr, hx])

/-- Past the last address from which two bytes can be read, the update takes the fetch fault (R133). -/
theorem update_of_fetch_fault (hl : s.live) (hpc : memSize < s.pc.toNat + 2) :
    update s = .next (s.takeFault (.memRange s.pc.toNat), (s.takeFault (.memRange s.pc.toNat)).quietOutputs) :=
  update_fault hl (by unfold instructionStep; rw [fetch_error hpc]; rfl)

/-! ### The step of a live block by whether it leaves a fault (R138) -/

theorem faulted_finishUpdate_of_exec (hl : s.live) (hx : exec i s = .next t) :
    (t.settleMode i).finishUpdate.faulted = none := by
  simp [finishUpdate_eq, exec_faulted hx, hl]

/-- A live block that is faulted after its step has taken the fault its instruction step raised. -/
theorem step_faulted (hl : s.live) (h : step s = .next t) (hf : t.faulted = some f) :
    instructionStep s = .fault f ∧ t = s.takeFault f := by
  obtain ⟨g, hg, _⟩ | ⟨g, _, hstep, rfl⟩ | ⟨u, _, hx, rfl⟩ := step_cases h
  · rw [hl] at hg; cases hg
  · cases hf; exact ⟨hstep, rfl⟩
  · rw [faulted_finishUpdate_of_exec hl hx] at hf; cases hf

/-- A step that leaves no fault has completed the instruction at `PC`. -/
theorem step_completed (h : step s = .next t) (hf : t.faulted = none) :
    ∃ u, exec (decodeWord s.wordAtPc) s = .next u ∧
      t = (u.settleMode (decodeWord s.wordAtPc)).finishUpdate := by
  obtain ⟨g, hg, rfl⟩ | ⟨g, _, _, rfl⟩ | ⟨u, _, hx, rfl⟩ := step_cases h
  · rw [hg] at hf; cases hf
  · cases hf
  · exact ⟨u, hx, rfl⟩

/-! ### The cause of a fault (R331) -/

theorem hasCause_of_faultsBy (h : FaultsBy s (decodeWord s.wordAtPc) f) : f.hasCause s := by
  obtain ⟨hp, hn, rfl⟩ | ⟨nnn, hi, hfull, rfl⟩ | ⟨hi, hempty, rfl⟩ | ⟨rfl, hn, hrange⟩ := h
  · rw [encode_decodeWord_of_namesFlag hn]
    exact ⟨rfl, hp, hn⟩
  · exact ⟨rfl, ⟨nnn, hi⟩, stackFull_depth hfull⟩
  · exact ⟨rfl, hi, hempty⟩
  · exact .inr ⟨rfl, hn, hrange⟩

/-- Every fault of an instruction step has its cause: the fetch, strict decoding, or the instruction. -/
theorem instructionStep_fault_hasCause (h : instructionStep s = .fault f) : f.hasCause s := by
  rcases instructionStep_cases s with ⟨hpc, he⟩ | ⟨_, ⟨hstrict, hw⟩, he⟩ | ⟨_, _, he⟩ <;> rw [he] at h
  · cases h; exact .inl ⟨rfl, hpc⟩
  · cases h; exact ⟨rfl, hstrict, unsettledWord_iff.mp hw⟩
  · exact hasCause_of_faultsBy (exec_fault (runInstr_fault h))

/-! ### Key events and loads (R298, R373) -/

theorem isPressed_setKey_self (k : Key) (pressed : Bool) : (s.setKey k pressed).isPressed k = pressed := by
  simp [State.isPressed, State.setKey]

theorem keyEvent_mapped {e : Nat} {k : Key} (pressed : Bool) (h : lookupKey s.config.keymap e = some k) :
    s.keyEvent e pressed = s.setKey k pressed := by
  unfold State.keyEvent; rw [h]

/-- A key event is one key's write, or nothing. -/
theorem keyEvent_cases (s : State) (e : Nat) (pressed : Bool) :
    s.keyEvent e pressed = s ∨ ∃ k, s.keyEvent e pressed = s.setKey k pressed := by
  unfold State.keyEvent
  split
  · exact .inl rfl
  · exact .inr ⟨_, rfl⟩

@[simp] theorem keyEvent_mode (s : State) (e : Nat) (pressed : Bool) : (s.keyEvent e pressed).mode = s.mode := by
  obtain h | ⟨k, h⟩ := keyEvent_cases s e pressed <;> rw [h]
  rfl

@[simp] theorem keyEvent_faulted (s : State) (e : Nat) (pressed : Bool) :
    (s.keyEvent e pressed).faulted = s.faulted := by
  obtain h | ⟨k, h⟩ := keyEvent_cases s e pressed <;> rw [h]
  rfl

@[simp] theorem load_mode (s : State) (p : LoadArgument) : (s.load p).mode = s.mode := by cases p <;> rfl

@[simp] theorem load_faulted (s : State) (p : LoadArgument) : (s.load p).faulted = s.faulted := by cases p <;> rfl

/-- A loaded program's bytes, up to `PROG_MAX` of them, are read back from 0x200 on. -/
theorem readByte_load {bytes : List Byte} {k : Nat} (hk : k < bytes.length) (hmax : k < progMax) :
    (s.load (.program bytes)).readByte (progBase + k) = bytes.getD k 0 := by
  have hin : k < (bytes.take progMax).length := by rw [List.length_take]; omega
  rw [State.load, State.jumpTo_readByte, readByte_storeBytes_within hin]
  simp [List.getD_eq_getElem?_getD, hmax]

/-! ### The halted block (R146) -/

theorem step_of_faulted (h : s.faulted = some f) : step s = .next s := step_of_update (update_faulted h)

/-- No transaction but `reset` clears a fault. -/
theorem transact_keeps_fault {tr : Transaction} (hf : s.faulted = some f) (hne : tr ≠ .reset)
    (h : transact tr s = .next t) : t.faulted = some f := by
  cases tr with
  | update => rw [transact, step_of_faulted hf] at h; cases h; exact hf
  | keyEvent e pressed => cases h; rw [keyEvent_faulted, hf]
  | load p => cases h; rw [load_faulted, hf]
  | reset => exact absurd rfl hne

/-! ### Waiting for a key (R139, R295, R299) -/

theorem mem_allKeys (k : Key) : k ∈ allKeys := by revert k; decide

theorem lowestPressed_eq_none_iff : s.lowestPressed = none ↔ ∀ k, s.isPressed k = false := by
  simp [State.lowestPressed, List.find?_eq_none, mem_allKeys]

/-- `LD Vx, K` leaves the block waiting exactly if no key is down. -/
theorem mode_ldXK {x : Reg} (h : exec (.ldXK x) s = .next t) :
    t.mode = .waitingForKey ↔ ∀ k, s.isPressed k = false := by
  rw [← lowestPressed_eq_none_iff]
  obtain ⟨hnone, rfl⟩ | ⟨k, hk, rfl⟩ := exec_next h
  · exact iff_of_true rfl hnone
  · exact iff_of_false (by simp) (by simp [hk])

/-- The mode after a completed instruction and the mode rule. -/
theorem mode_settleMode_of_exec (h : exec i s = .next t) :
    (t.settleMode i).mode = .waitingForKey ↔ (∃ x, i = .ldXK x) ∧ ∀ k, s.isPressed k = false := by
  obtain ⟨hm, x, rfl⟩ | ⟨hm, hne⟩ := settleMode_mode t i
  · rw [hm, mode_ldXK h]
    exact (and_iff_right ⟨x, rfl⟩).symm
  · rw [hm]
    exact iff_of_false nofun fun ⟨⟨x, hi⟩, _⟩ => hne x hi

/-! ### `PC` after a completed instruction (R136) -/

theorem exec_pc_of_not_movesPc (h : exec i s = .next t) (hi : i.movesPc = false) : t.pc = s.pc + 2 := by
  have hc := exec_next h
  cases i with
  | ret | jp _ | call _ | jpV0 _ | seXKK _ _ | sneXKK _ _ | seXY _ _ | sneXY _ _ | skp _ | sknp _ | ldXK _ =>
    cases hi
  | drw _ _ _ | ldBX _ | ldMemX _ | ldXMem _ => obtain ⟨_, rfl⟩ := hc; rfl
  | _ => cases hc; rfl

theorem skipIf_pc_cases (c : Bool) : (s.skipIf c).pc = s.pc + 4 ∨ (s.skipIf c).pc = s.pc + 2 := by
  cases c
  · exact .inr rfl
  · exact .inl rfl

theorem exec_pc_of_skips (h : exec i s = .next t) (hi : i.skips = true) :
    t.pc = s.pc + 4 ∨ t.pc = s.pc + 2 := by
  have hc := exec_next h
  cases i with
  | seXKK _ _ | sneXKK _ _ | seXY _ _ | sneXY _ _ | skp _ | sknp _ => cases hc; exact skipIf_pc_cases _
  | _ => cases hi

/-- `LD Vx, K` holds `PC` while no key is down, and advances with one down. -/
theorem exec_ldXK_pc {x : Reg} (h : exec (.ldXK x) s = .next t) :
    ((∀ k, s.isPressed k = false) → t.pc = s.pc) ∧ ((∃ k, s.isPressed k = true) → t.pc = s.pc + 2) := by
  obtain ⟨hnone, rfl⟩ | ⟨k, hk, rfl⟩ := exec_next h
  · refine ⟨fun _ => rfl, fun ⟨k, hk⟩ => ?_⟩
    rw [lowestPressed_eq_none_iff.mp hnone k] at hk; cases hk
  · refine ⟨fun hup => ?_, fun _ => rfl⟩
    rw [lowestPressed_eq_none_iff.mpr hup] at hk; cases hk

end Sys2Proof.Machine
end

section
/-! PROOFS. The update cycle (spec/40_engine.md R131 to R146): fetch, step, mode, `PC`, faults and the halted
block. -/

namespace Sys2Proof.Machine

/-- Settles O7: the step of a state that executes is the run of its instruction, then the end of the update. -/
theorem stepRunsTheDecodedInstruction : Obligations.StepRunsTheDecodedInstruction := by
  refine fun s hs => ⟨fun t hx => ?_, fun f hx => ?_⟩
  · exact ⟨step_of_exec hs hx, update_of_exec hs hx⟩
  · have hu := update_of_exec_fault hs hx
    exact ⟨step_of_update hu, hu⟩

/-- Settles O8, by the two answers of the fetch. -/
theorem fetchReadsTwoBytesOrFaults : Obligations.FetchReadsTwoBytesOrFaults := by
  refine fun s => ⟨fun hpc => ?_, fun hpc => ?_⟩
  · exact ⟨s.wordAtPc, fetch_ok (Nat.succ_le_succ hpc), toNat_wordOfBytes _ _⟩
  · have hend : memSize < s.pc.toNat + 2 := Nat.add_le_add_right hpc 2
    exact ⟨fetch_error hend, fun hl => update_of_fetch_fault hl hend⟩

/-- Settles O10: a faulted update is quiet, a key event and a load still write, and only `reset` clears the
fault. -/
theorem faultedBlockIsHaltedUntilReset : Obligations.FaultedBlockIsHaltedUntilReset := by
  intro s f hf
  refine ⟨?_, step_of_faulted hf, fun e k pressed he => ?_, fun bytes => ⟨rfl, fun k => readByte_load⟩,
    fun tr t h hnone => ?_, rfl⟩
  · rw [update_faulted hf, State.quietOutputs, hf]
  · rw [keyEvent_mapped pressed he, isPressed_setKey_self]
  · by_contra hne
    rw [transact_keeps_fault hf hne h] at hnone; cases hnone

/-- Settles O11: the only way to a fault is taking it. -/
theorem faultingStepChangesOnlyFaulted : Obligations.FaultingStepChangesOnlyFaulted := by
  intro s t hl h hne
  obtain ⟨f, hf⟩ := Option.ne_none_iff_exists'.mp hne
  obtain ⟨_, rfl⟩ := step_faulted hl h hf
  rfl

/-- Settles O13: the fault is that of the instruction step, with its cause, and the parameters allow it. -/
theorem everyFaultHasItsCause : Obligations.EveryFaultHasItsCause := by
  intro s t f hl h hf
  obtain ⟨hstep, _⟩ := step_faulted hl h hf
  refine ⟨instructionStep_fault_hasCause hstep, fun hlax hseq => ?_⟩
  have hallowed := instructionStep_fault_allowed hstep
  cases f with
  | memRange a => exact .inl ⟨a, rfl⟩
  | stackOverflow p => exact .inr (.inl ⟨p, rfl⟩)
  | stackUnderflow p => exact .inr (.inr ⟨p, rfl⟩)
  | decodeUnsettled w => rw [Fault.AllowedBy, hlax] at hallowed; cases hallowed
  | aliasUnsettled w => rw [Fault.AllowedBy, hseq] at hallowed; cases hallowed

/-- Settles O14: the end of the update keeps the mode that the instruction and the mode rule leave. -/
theorem modeTellsWhetherTheStepParked : Obligations.ModeTellsWhetherTheStepParked := by
  refine ⟨fun s t _ h hf => ?_, fun s e pressed p => ⟨keyEvent_mode s e pressed, load_mode s p, rfl⟩⟩
  obtain ⟨u, hx, rfl⟩ := step_completed h hf
  exact mode_settleMode_of_exec hx

/-- Settles O28, way by way. -/
theorem pcIsWrittenInOneOfFiveWays : Obligations.PcIsWrittenInOneOfFiveWays := by
  refine fun i s t h => ⟨exec_pc_of_not_movesPc h, exec_pc_of_skips h, ?_, ?_, ?_, ?_⟩
  · rintro nnn (rfl | rfl)
    · cases exec_next h; exact toNat_addressOperand nnn
    · obtain ⟨_, rfl⟩ := exec_next h; exact toNat_addressOperand nnn
  · rintro nnn rfl
    cases exec_next h; exact toNat_addressOperand_add nnn (s.reg 0)
  · rintro rfl
    obtain ⟨top, rest, hs, rfl⟩ := exec_next h
    exact ⟨top, rest, hs, rfl⟩
  · rintro x rfl
    exact exec_ldXK_pc h

end Sys2Proof.Machine
end

section
/-! SUPPORT. Control transfer (spec/41_control_flow.md): what `CALL` and `RET` answer on each stack, what a skip
answers on each condition, and the words of which the decoder leaves bits unexamined. -/

namespace Sys2Proof.Machine

variable {s : State}

/-! ### The bound of the stack (R36, R161) -/

theorem stackFull_eq_false_iff :
    s.stackFull = false ↔ ∀ d, s.config.stackDepth = some d → s.stack.length < d := by
  refine ⟨fun h d => lt_depth_of_not_stackFull h, fun h => ?_⟩
  cases hd : s.config.stackDepth with
  | none => simp [State.stackFull, hd]
  | some d => simp [State.stackFull, hd, h d hd]

theorem stackFull_of_depth (h : s.config.stackDepth = some s.stack.length) : s.stackFull = true := by
  simp [State.stackFull, h]

/-! ### `CALL` and `RET` by the stack they find (R161, R162) -/

theorem exec_call_of_room (nnn : Addr12) (h : s.stackFull = false) :
    exec (.call nnn) s = .next ((s.push s.pc).jumpTo (addressOperand nnn)) := by
  simp [exec, execCall, h]

theorem exec_call_of_full (nnn : Addr12) (h : s.stackFull = true) :
    exec (.call nnn) s = .fault (.stackOverflow s.pc) := by
  simp [exec, execCall, h, raise]

theorem exec_ret_of_cons {top : Word} {rest : List Word} (h : s.stack = top :: rest) :
    exec .ret s = .next ((s.setStack rest).jumpTo (top + 2)) := by
  simp [exec, execRet, h]

theorem exec_ret_of_nil (h : s.stack = []) : exec .ret s = .fault (.stackUnderflow s.pc) := by
  simp [exec, execRet, h, raise]

/-! ### The skips (R168) -/

/-- An instruction that answers a skip advances 4 where its condition holds and 2 where it fails, and writes only
`PC`. -/
theorem exec_skip {i : Instr} {taken : Bool} {Holds Fails : Prop} (hx : exec i s = .next (s.skipIf taken))
    (hholds : Holds → taken = true) (hfails : Fails → taken = false) :
    ∃ t, exec i s = .next t ∧ (Holds → t.pc = s.pc + 4) ∧ (Fails → t.pc = s.pc + 2) ∧
      ChangesOnly s t fun c => c = .pc := by
  refine ⟨_, hx, fun h => ?_, fun h => ?_, changesOnly_skipIf rfl⟩
  · rw [hholds h]; rfl
  · rw [hfails h]; rfl

/-! ### The words with unexamined bits (R110, R114) -/

theorem decodeWord_ret (x : Reg) : decodeWord (wordXKK 0x0 x 0xEE) = .ret := by
  simp [decodeWord, decode0]

theorem decodeWord_seXY (x y : Reg) (n : BitVec 4) : decodeWord (wordXYN 0x5 x y n) = .seXY x y := by
  simp [decodeWord]

theorem decodeWord_sneXY (x y : Reg) (n : BitVec 4) : decodeWord (wordXYN 0x9 x y n) = .sneXY x y := by
  simp [decodeWord]

/-- In the 5- and 9-family the words of R114 are those whose low nibble is not 0. -/
theorem unsettledByRule_wordXYN {op : BitVec 4} (h : op = 0x5 ∨ op = 0x9) (x y : Reg) (n : BitVec 4) :
    UnsettledByRule (wordXYN op x y n) ↔ n ≠ 0 := by
  rw [← unsettledWord_iff, unsettledWord]
  obtain rfl | rfl := h <;> simp

end Sys2Proof.Machine
end

section
/-! PROOFS. Control transfer (spec/41_control_flow.md R160 to R168): jumps, calls, returns and skips. -/

namespace Sys2Proof.Machine

/-- Settles O34: the entry the `RET` finds on top is the address of the `CALL`. -/
theorem retUndoesCall : Obligations.RetUndoesCall := by
  intro nnn s t u hcall hstack
  obtain ⟨_, rfl⟩ := exec_next hcall
  have hu : u.stack = s.pc :: s.stack := hstack
  exact ⟨_, exec_ret_of_cons hu, rfl, rfl⟩

/-- Settles O31: the target fits in `PC`, so it is set as it is. -/
theorem jumpsSetPc : Obligations.JumpsSetPc := by
  refine fun nnn s => ⟨decodeWord_encode (i := .jp nnn) rfl, decodeWord_encode (i := .jpV0 nnn) rfl,
    ⟨_, rfl, ?_, changesOnly_jumpTo rfl⟩, ⟨_, rfl, ?_, changesOnly_jumpTo rfl⟩⟩
  · exact toNat_addressOperand nnn
  · exact toNat_addressOperand_add nnn (s.reg 0)

/-- Settles O32, by whether the stack has room. -/
theorem callPushesItsOwnAddress : Obligations.CallPushesItsOwnAddress := by
  refine fun nnn s => ⟨decodeWord_encode (i := .call nnn) rfl, fun hroom => ?_, fun hfull => ?_⟩
  · have hx := exec_call_of_room nnn (stackFull_eq_false_iff.mpr hroom)
    exact ⟨_, hx, rfl, toNat_addressOperand nnn, exec_changesOnly hx⟩
  · exact exec_call_of_full nnn (stackFull_of_depth hfull)

/-- Settles O33, by whether the stack has an entry. -/
theorem retResumesPastThePoppedAddress : Obligations.RetResumesPastThePoppedAddress := by
  refine ⟨decodeWord_ret, fun s top rest hs => ?_, fun s => exec_ret_of_nil⟩
  have hx := exec_ret_of_cons hs
  exact ⟨_, hx, rfl, BitVec.toNat_add top 2, exec_changesOnly hx⟩

/-- Settles O35, skip by skip. -/
theorem skipsTestAndWriteOnlyPc : Obligations.SkipsTestAndWriteOnlyPc := by
  refine fun x y kk n s => ⟨decodeWord_encode (i := .seXKK x kk) rfl, decodeWord_encode (i := .sneXKK x kk) rfl,
    decodeWord_seXY x y n, decodeWord_sneXY x y n, unsettledByRule_wordXYN (.inl rfl) x y n,
    unsettledByRule_wordXYN (.inr rfl) x y n, ?seXKK, ?sneXKK, ?seXY, ?sneXY⟩
  case seXKK | seXY => exact exec_skip rfl beq_iff_eq.mpr beq_false_of_ne
  case sneXKK | sneXY => exact exec_skip rfl bne_iff_ne.mpr bne_eq_false_iff_eq.mpr

end Sys2Proof.Machine
end

section
/-! SUPPORT. Arithmetic and logic (spec/42_arith_logic.md): when `VF_ALIAS_POLICY` lets an instruction execute, what
the flags and the shifts are as numbers, and what a flagged operation leaves in its registers. -/

namespace Sys2Proof.Machine

variable {s : State} {x y : Reg}

/-! ### `VF_ALIAS_POLICY` (R203) -/

theorem mem_pair_iff_aliased : VF ∈ [x, y] ↔ (x == VF || y == VF) = true := by simp [eq_comm (a := VF)]

theorem mem_singleton_iff_aliased : VF ∈ [x] ↔ (x == VF) = true := by simp [eq_comm (a := VF)]

theorem guardAlias_of_admits {ops : List Reg} {aliased : Bool} {w : Word} {k : Result}
    (ha : VF ∈ ops ↔ aliased = true) (h : s.admitsOperands ops) : guardAlias s aliased w k = k :=
  guardAlias_pass fun ⟨hp, hal⟩ => h hp (ha.mpr hal)

theorem guardAlias_of_not_admits {ops : List Reg} {aliased : Bool} {w : Word} {k : Result}
    (ha : VF ∈ ops ↔ aliased = true) (h : ¬ s.admitsOperands ops) :
    guardAlias s aliased w k = .fault (.aliasUnsettled w) := by
  obtain ⟨hp, hmem⟩ := Classical.not_imp.mp h
  exact guardAlias_refuse ⟨hp, ha.mp (not_not.mp hmem)⟩

/-- Every VF-alias word passes through the check of the policy before anything else (R333). -/
theorem exec_of_namesFlag {i : Instr} (hp : s.config.vfAliasPolicy = .fault) (hn : i.namesFlag = true) :
    exec i s = .fault (.aliasUnsettled (encode i)) := by
  cases i with
  | addXY _ _ | subXY _ _ | shr _ _ | subnXY _ _ | shl _ _ | addIX _ | drw _ _ _ =>
    exact guardAlias_refuse ⟨hp, by simpa [Instr.namesFlag] using hn⟩
  | _ => cases hn

/-- Only the check of the policy raises `AliasUnsettled`. -/
theorem namesFlag_of_aliasUnsettled {i : Instr} {w : Word} (h : exec i s = .fault (.aliasUnsettled w)) :
    s.config.vfAliasPolicy = .fault ∧ i.namesFlag = true := by
  obtain ⟨hp, hn, _⟩ | ⟨_, _, _, hf⟩ | ⟨_, _, hf⟩ | ⟨hf, _⟩ := exec_fault h
  · exact ⟨hp, hn⟩
  all_goals cases hf

/-! ### Flags and shifts as numbers -/

theorem toNat_flagByte (b : Bool) : (flagByte b).toNat = if b then 1 else 0 := by cases b <;> rfl

theorem toNat_carryFlag (a b : Byte) : (carryFlag a b).toNat = if a.toNat + b.toNat > 255 then 1 else 0 := by
  have hcarry : b.toNat > 255 - a.toNat ↔ a.toNat + b.toNat > 255 := by have := a.isLt; omega
  simp only [carryFlag, toNat_flagByte, decide_eq_true_eq, hcarry]

theorem toNat_noBorrowFlag (a b : Byte) : (noBorrowFlag a b).toNat = if b.toNat > a.toNat then 0 else 1 := by
  simp only [noBorrowFlag, toNat_flagByte, Bool.not_eq_true', decide_eq_false_iff_not, ite_not]

theorem toNat_lowBitFlag (a : Byte) : (lowBitFlag a).toNat = a.toNat % 2 :=
  (BitVec.toNat_and a 1).trans (Nat.and_one_is_mod _)

theorem toNat_highBitFlag (a : Byte) : (highBitFlag a).toNat = a.toNat / 128 :=
  (BitVec.toNat_ushiftRight a 7).trans (Nat.shiftRight_eq_div_pow _ 7)

theorem toNat_shiftRight_one (a : Byte) : (a >>> 1).toNat = a.toNat / 2 :=
  (BitVec.toNat_ushiftRight a 1).trans (Nat.shiftRight_eq_div_pow _ 1)

theorem toNat_shiftLeft_one (a : Byte) : (a <<< 1).toNat = 2 * a.toNat % 256 := by
  rw [BitVec.toNat_shiftLeft, Nat.shiftLeft_eq, Nat.mul_comm]

theorem toNat_sub_byte (a b : Byte) : (a - b).toNat = (a.toNat + 256 - b.toNat) % 256 := by
  have := b.isLt
  rw [BitVec.toNat_sub]
  omega

/-! ### What a register write and a flagged operation leave (R203) -/

theorem reg_advance_setReg (s : State) (x : Reg) (b : Byte) : (s.setReg x b).advance.reg x = b :=
  reg_setReg_self s x b

theorem reg_VF_flagThenResult (h : x ≠ VF) (f : Byte) (g : State → Byte) :
    (s.flagThenResult f x g).reg VF = f := by
  rw [flagThenResult_eq, reg_setReg_ne _ _ h.symm, reg_setReg_self]

theorem reg_flagThenResult_self (f : Byte) (g : State → Byte) :
    (s.flagThenResult f x g).reg x = g (s.setReg VF f) := reg_setReg_self _ _ _

theorem changesOnly_flagThenResult_advance (f : Byte) (g : State → Byte) :
    ChangesOnly s (s.flagThenResult f x g).advance fun c => c = .pc ∨ c = .reg x ∨ c = .reg VF :=
  ((changesOnly_setReg (.inr (.inr rfl))).setReg (.inr (.inl rfl))).advance (.inl rfl)

/-- A flagged operation on `Vx` and `Vy`, in the four aliasings of `VF` with an operand: the flag takes the place of
an operand that is `VF`. -/
theorem exec_flagged_pair {i : Instr} {f : Byte} {op : Byte → Byte → Byte} {n both : Nat}
    {opN : Nat → Nat → Nat}
    (hx : exec i s = .next (s.flagThenResult f x fun u => op (u.reg x) (u.reg y)).advance)
    (hf : f.toNat = n) (hop : ∀ a b, (op a b).toNat = opN a.toNat b.toNat) (hboth : opN n n = both) :
    ∃ t, exec i s = .next t ∧ (x ≠ VF → (t.reg VF).toNat = n) ∧
      (x ≠ VF → y ≠ VF → (t.reg x).toNat = opN (s.reg x).toNat (s.reg y).toNat) ∧
      (x = VF → y ≠ VF → (t.reg x).toNat = opN n (s.reg y).toNat) ∧
      (x ≠ VF → y = VF → (t.reg x).toNat = opN (s.reg x).toNat n) ∧
      (x = VF → y = VF → (t.reg x).toNat = both) ∧
      t.pc = s.pc + 2 ∧ ChangesOnly s t fun c => c = .pc ∨ c = .reg x ∨ c = .reg VF := by
  subst hf hboth
  simp only [← hop]
  refine ⟨_, hx, fun h => ?flag, fun h h' => ?neither, ?first, ?second, ?both, rfl,
    changesOnly_flagThenResult_advance _ _⟩
  case flag => rw [State.advance_reg, reg_VF_flagThenResult h]
  all_goals rw [State.advance_reg, reg_flagThenResult_self]
  case neither => rw [reg_setReg_ne s f h, reg_setReg_ne s f h']
  case first => rintro rfl h'; rw [reg_setReg_self, reg_setReg_ne s f h']
  case second => rintro h rfl; rw [reg_setReg_self, reg_setReg_ne s f h]
  case both => rintro rfl rfl; rw [reg_setReg_self]

/-- A flagged operation on `Vx` alone: with `x = 15` it works on the flag. -/
theorem exec_flagged_single {i : Instr} {f : Byte} {op : Byte → Byte} {n onFlag : Nat} {opN : Nat → Nat}
    (hx : exec i s = .next (s.flagThenResult f x fun u => op (u.reg x)).advance)
    (hf : f.toNat = n) (hop : ∀ a, (op a).toNat = opN a.toNat) (hflag : opN n = onFlag) :
    ∃ t, exec i s = .next t ∧ (x ≠ VF → (t.reg x).toNat = opN (s.reg x).toNat ∧ (t.reg VF).toNat = n) ∧
      (x = VF → (t.reg VF).toNat = onFlag) ∧
      t.pc = s.pc + 2 ∧ ChangesOnly s t fun c => c = .pc ∨ c = .reg x ∨ c = .reg VF := by
  subst hf hflag
  simp only [← hop]
  refine ⟨_, hx, fun h => ⟨?_, ?_⟩, ?_, rfl, changesOnly_flagThenResult_advance _ _⟩
  · rw [State.advance_reg, reg_flagThenResult_self, reg_setReg_ne s f h]
  · rw [State.advance_reg, reg_VF_flagThenResult h]
  · rintro rfl
    rw [State.advance_reg, reg_flagThenResult_self, reg_setReg_self]

end Sys2Proof.Machine
end

section
/-! PROOFS. Arithmetic and logic (spec/42_arith_logic.md R190 to R203): loads, sums, differences, shifts, bitwise
logic, the random byte and `VF_ALIAS_POLICY`. -/

namespace Sys2Proof.Machine

/-- Settles O40: the sum is modulo 256, and twice the carry does not wrap. -/
theorem addWritesSumAndCarry : Obligations.AddWritesSumAndCarry := by
  rintro x y s _ _ _ rfl rfl rfl
  refine ⟨decodeWord_encode (i := .addXY x y) rfl, fun h => ?_, guardAlias_of_not_admits mem_pair_iff_aliased⟩
  refine exec_flagged_pair (op := (· + ·)) (opN := fun a b => (a + b) % 256)
    (guardAlias_of_admits mem_pair_iff_aliased h) (toNat_carryFlag _ _) BitVec.toNat_add ?_
  split <;> rfl

/-- Settles O41: `SUBN` is `SUB` with its operands exchanged, and a byte less itself is 0. -/
theorem subtractionsWriteDifferenceAndNoBorrow : Obligations.SubtractionsWriteDifferenceAndNoBorrow := by
  rintro x y s _ _ _ _ rfl rfl rfl rfl
  refine ⟨decodeWord_encode (i := .subXY x y) rfl, decodeWord_encode (i := .subnXY x y) rfl, fun h => ?_,
    fun h => ?_, fun h => ⟨guardAlias_of_not_admits mem_pair_iff_aliased h,
      guardAlias_of_not_admits mem_pair_iff_aliased h⟩⟩
  · exact exec_flagged_pair (op := (· - ·)) (opN := fun a b => (a + 256 - b) % 256)
      (guardAlias_of_admits mem_pair_iff_aliased h) (toNat_noBorrowFlag _ _) toNat_sub_byte (by omega)
  · exact exec_flagged_pair (op := fun a b => b - a) (opN := fun a b => (b + 256 - a) % 256)
      (guardAlias_of_admits mem_pair_iff_aliased h) (toNat_noBorrowFlag _ _) (fun a b => toNat_sub_byte b a)
      (by omega)

/-- Settles O42: of the flag itself `SHR` leaves 0, and `SHL` doubles it. -/
theorem shiftsPutTheLostBitIntoVF : Obligations.ShiftsPutTheLostBitIntoVF := by
  rintro x y s _ rfl
  refine ⟨decodeWord_encode (i := .shr x y) rfl, decodeWord_encode (i := .shl x y) rfl, fun h => ?_, fun h => ?_,
    fun h => ⟨guardAlias_of_not_admits mem_singleton_iff_aliased h,
      guardAlias_of_not_admits mem_singleton_iff_aliased h⟩⟩
  · exact exec_flagged_single (op := (· >>> 1)) (opN := (· / 2))
      (guardAlias_of_admits mem_singleton_iff_aliased h) (toNat_lowBitFlag _) toNat_shiftRight_one (by omega)
  · have := (s.reg x).isLt
    exact exec_flagged_single (op := (· <<< 1)) (opN := fun a => 2 * a % 256)
      (guardAlias_of_admits mem_singleton_iff_aliased h) (toNat_highBitFlag _) toNat_shiftLeft_one (by omega)

/-- Settles O43: the check of the policy comes first in every instruction that has one, and is the only source of its
fault. -/
theorem aliasPolicyRefusesExactlyTheAliasWords : Obligations.AliasPolicyRefusesExactlyTheAliasWords :=
  fun _ _ => ⟨exec_of_namesFlag, fun _ => namesFlag_of_aliasUnsettled⟩

/-- Settles O37: each load is one register write and the plain advance. -/
theorem loadsWriteOnlyTheirRegister : Obligations.LoadsWriteOnlyTheirRegister :=
  fun x y kk s => ⟨decodeWord_encode (i := .ldXKK x kk) rfl, decodeWord_encode (i := .ldXY x y) rfl,
    ⟨_, rfl, reg_advance_setReg s x kk, rfl, exec_changesOnly (i := .ldXKK x kk) rfl⟩,
    ⟨_, rfl, reg_advance_setReg s x (s.reg y), rfl, exec_changesOnly (i := .ldXY x y) rfl⟩⟩

/-- Settles O38: the sum of two bytes is modulo 256. -/
theorem addImmediateWrapsWithoutFlag : Obligations.AddImmediateWrapsWithoutFlag := by
  refine fun x kk s => ⟨decodeWord_encode (i := .addXKK x kk) rfl,
    _, rfl, ?_, rfl, exec_changesOnly (i := .addXKK x kk) rfl⟩
  rw [reg_advance_setReg, BitVec.toNat_add]

/-- Settles O39, operation by operation. -/
theorem logicWorksBitByBit : Obligations.LogicWorksBitByBit := by
  refine fun x y s => ⟨decodeWord_encode (i := .orXY x y) rfl, decodeWord_encode (i := .andXY x y) rfl,
    decodeWord_encode (i := .xorXY x y) rfl,
    ⟨_, rfl, fun k => ?_, rfl, exec_changesOnly (i := .orXY x y) rfl⟩,
    ⟨_, rfl, fun k => ?_, rfl, exec_changesOnly (i := .andXY x y) rfl⟩,
    ⟨_, rfl, fun k => ?_, rfl, exec_changesOnly (i := .xorXY x y) rfl⟩⟩
  · rw [reg_advance_setReg, BitVec.getLsbD_or]
  · rw [reg_advance_setReg, BitVec.getLsbD_and]
  · rw [reg_advance_setReg, BitVec.getLsbD_xor]

/-- Settles O44, for whatever byte is drawn. -/
theorem randomByteIsMasked : Obligations.RandomByteIsMasked := by
  refine fun x kk s => ⟨decodeWord_encode (i := .rnd x kk) rfl, _, rfl, fun k => ?_, ?_, rfl, rfl,
    exec_changesOnly (i := .rnd x kk) rfl⟩
  · rw [reg_advance_setReg, BitVec.getLsbD_and, State.drawnByte]
  · rintro rfl
    rw [reg_advance_setReg]
    exact BitVec.and_zero

end Sys2Proof.Machine
end

section
/-! SUPPORT. Index and memory instructions (spec/43_index_memory.md): what they compute, as numbers, and what an
access to the bytes at `I` answers, by whether they lie within memory. -/

namespace Sys2Proof.Machine

variable {s : State} {x : Reg}

/-! ### The index and the digits as numbers (R231 to R233, R236) -/

/-- A glyph address does not wrap, whatever the digit (R232). -/
theorem toNat_glyphAddress (b : Byte) : (glyphAddress b).toNat = 5 * b.toNat := by
  have hb : (b.setWidth 16).toNat = b.toNat := BitVec.toNat_setWidth_of_le (by decide)
  have hlt : 5 * b.toNat < 65536 := by have := b.isLt; omega
  rw [glyphAddress, BitVec.toNat_mul, hb, BitVec.toNat_ofNat, Nat.mul_mod_mod, Nat.mul_comm]
  exact Nat.mod_eq_of_lt hlt

theorem toNat_indexRangeFlag (i : Word) (b : Byte) :
    (indexRangeFlag i b).toNat = if indexSum i b > 0xFFF then 1 else 0 := by
  simp only [indexRangeFlag, toNat_flagByte, decide_eq_true_eq]

theorem toNat_indexPastBlock (s : State) (x : Reg) :
    (s.indexPastBlock x).toNat = (s.i.toNat + x.val + 1) % 65536 := by
  rw [State.indexPastBlock, blockSize, BitVec.toNat_add, BitVec.toNat_ofNat, Nat.add_mod_mod, Nat.add_assoc]

/-- Each of the three digits fits in its byte (R233). -/
theorem toNat_decimalDigits (b : Byte) :
    (decimalDigits b).map BitVec.toNat = [b.toNat / 100, b.toNat / 10 % 10, b.toNat % 10] := by
  have hlt := b.isLt
  simp only [decimalDigits, List.map_cons, List.map_nil, BitVec.toNat_ofNat, List.cons.injEq, and_true]
  omega

/-! ### The bytes at `I`, within memory and past its end (R73, R74) -/

section Access

variable {a n : Nat} {bytes : List Byte}

theorem afterWrite_memWrite_within (k : State → Result) (hlen : bytes.length = n) (h : a + n ≤ memSize) :
    afterWrite (s.memWrite a bytes) k = k (s.storeBytes a bytes) := by
  rw [memWrite_ok (.inr (hlen ▸ h)), afterWrite]

theorem afterWrite_memWrite_past (k : State → Result) (hlen : bytes.length = n) (hn : n ≠ 0)
    (h : memSize < a + n) : afterWrite (s.memWrite a bytes) k = .fault (.memRange a) := by
  subst hlen
  rw [memWrite_error hn h, afterWrite, raise]

theorem afterRead_memRead_within (k : List Byte → Result) (h : a + n ≤ memSize) :
    afterRead (s.memRead a n) k = k ((List.range n).map fun j => s.readByte (a + j)) := by
  rw [memRead_ok (.inr h), afterRead]

theorem afterRead_memRead_past (k : List Byte → Result) (hn : n ≠ 0) (h : memSize < a + n) :
    afterRead (s.memRead a n) k = .fault (.memRange a) := by
  rw [memRead_error hn h, afterRead, raise]

end Access

/-! ### The completed instructions (R231, R233, R235) -/

theorem exec_addIX_of_admits (h : s.admitsOperands [x]) :
    exec (.addIX x) s = .next ((s.setI (BitVec.ofNat 16 (indexSum s.i (s.reg x)))).setReg VF
      (indexRangeFlag s.i (s.reg x))).advance :=
  guardAlias_of_admits mem_singleton_iff_aliased h

theorem exec_ldBX_within (h : s.i.toNat + 3 ≤ memSize) :
    exec (.ldBX x) s = .next (s.storeBytes s.i.toNat (decimalDigits (s.reg x))).advance :=
  afterWrite_memWrite_within _ (length_decimalDigits _) h

theorem exec_ldXMem_within (h : s.i.toNat + (x.val + 1) ≤ memSize) :
    exec (.ldXMem x) s = .next ((s.setRegs ((List.range (x.val + 1)).map fun k => s.readByte (s.i.toNat + k))).setI
      (s.indexPastBlock x)).advance :=
  afterRead_memRead_within _ h

/-! ### The bytes and the registers they leave -/

/-- A stored decimal digit as the number it reads back as. -/
theorem toNat_readByte_storeBytes_decimalDigits {a k : Nat} (b : Byte) (hk : k < 3) :
    ((s.storeBytes a (decimalDigits b)).readByte (a + k)).toNat =
      [b.toNat / 100, b.toNat / 10 % 10, b.toNat % 10].getD k 0 := by
  rw [readByte_storeBytes_within hk, ← toNat_decimalDigits]
  exact (List.getD_map _ 0 BitVec.toNat).symm

/-- A loaded register block takes each of its registers from the register's own offset (R235). -/
theorem reg_setRegs_readBytes {q : Reg} (a : Nat) (h : q.val ≤ x.val) :
    (s.setRegs ((List.range (x.val + 1)).map fun k => s.readByte (a + k))).reg q = s.readByte (a + q.val) := by
  have hq : q.val < x.val + 1 := Nat.lt_succ_of_le h
  rw [reg_setRegs, if_pos (by simpa using hq)]
  simp [hq]

end Sys2Proof.Machine
end

section
/-! PROOFS. Index and memory instructions (spec/43_index_memory.md R230 to R236): the index register, the decimal
digits, the register dump and the register load. -/

namespace Sys2Proof.Machine

/-- Settles O50: the load reads the dumped block at the offsets it was stored at, and both move the same `I`. -/
theorem loadAfterDumpRestoresTheRegisters : Obligations.LoadAfterDumpRestoresTheRegisters := by
  intro x s t u hdump hmem hi
  obtain ⟨hin, rfl⟩ := exec_next hdump
  refine ⟨_, exec_ldXMem_within (hi ▸ hin), fun q hq => ?_, ?_⟩
  · rw [State.advance_reg, State.setI_reg, reg_setRegs_readBytes _ hq, hmem, hi]
    exact readByte_storeBytes_regBlock _ hq
  · exact congrArg (· + BitVec.ofNat 16 (blockSize x)) hi

/-- Settles O45: neither the address immediate nor the glyph address wraps. -/
theorem indexLoadsWriteOnlyI : Obligations.IndexLoadsWriteOnlyI :=
  fun nnn x s => ⟨decodeWord_encode (i := .ldI nnn) rfl, decodeWord_encode (i := .ldFX x) rfl,
    ⟨_, rfl, toNat_addressOperand nnn, rfl, exec_changesOnly (i := .ldI nnn) rfl⟩,
    ⟨_, rfl, toNat_glyphAddress (s.reg x), rfl, exec_changesOnly (i := .ldFX x) rfl⟩⟩

/-- Settles O46: the sum and the flag are both computed from the old `I` and `Vx`. -/
theorem addIndexFlagsItsRange : Obligations.AddIndexFlagsItsRange := by
  rintro x s _ rfl
  refine ⟨decodeWord_encode (i := .addIX x) rfl, fun h => ?_, guardAlias_of_not_admits mem_singleton_iff_aliased⟩
  have hx := exec_addIX_of_admits h
  refine ⟨_, hx, BitVec.toNat_ofNat _ _, ?_, rfl, exec_changesOnly hx⟩
  rw [reg_advance_setReg]
  exact toNat_indexRangeFlag _ _

/-- Settles O47, by whether the three bytes lie within memory. -/
theorem decimalDigitsAreStoredAtI : Obligations.DecimalDigitsAreStoredAtI := by
  rintro x s _ rfl
  refine ⟨decodeWord_encode (i := .ldBX x) rfl, fun hin => ?_,
    afterWrite_memWrite_past _ (length_decimalDigits _) (by decide)⟩
  have hx := exec_ldBX_within (x := x) hin
  exact ⟨_, hx, toNat_readByte_storeBytes_decimalDigits (k := 0) _ (by decide),
    toNat_readByte_storeBytes_decimalDigits (k := 1) _ (by decide),
    toNat_readByte_storeBytes_decimalDigits (k := 2) _ (by decide), rfl, exec_changesOnly hx⟩

/-- Settles O48, by whether the block lies within memory. -/
theorem registerDumpStoresTheBlock : Obligations.RegisterDumpStoresTheBlock := by
  refine fun x s => ⟨decodeWord_encode (i := .ldMemX x) rfl, fun hin => ?_,
    afterWrite_memWrite_past _ (length_regBlock s x) (Nat.succ_ne_zero _)⟩
  have hx := exec_ldMemX_within hin
  exact ⟨_, hx, fun q => readByte_storeBytes_regBlock _, toNat_indexPastBlock s x, rfl, exec_changesOnly hx⟩

/-- Settles O49, by whether the block lies within memory. -/
theorem registerLoadReadsTheBlock : Obligations.RegisterLoadReadsTheBlock := by
  refine fun x s => ⟨decodeWord_encode (i := .ldXMem x) rfl, fun hin => ?_,
    afterRead_memRead_past _ (Nat.succ_ne_zero x.val)⟩
  have hx := exec_ldXMem_within hin
  exact ⟨_, hx, fun q => reg_setRegs_readBytes _, toNat_indexPastBlock s x, rfl, exec_changesOnly hx⟩

end Sys2Proof.Machine
end

section
/-! SUPPORT. The display (spec/44_display.md): when a draw completes, what it leaves in the pixels and in `VF`, and
which instructions leave `dirty` set. -/

namespace Sys2Proof.Machine

variable {s t : State} {i : Instr} {x y : Reg} {n : Height}

/-! ### `dirty` after an instruction (R40, R264) -/

theorem exec_dirty_iff (hs : s.dirty = false) (h : exec i s = .next t) :
    t.dirty = true ↔ i = .cls ∨ ∃ x y n, i = .drw x y n := by
  constructor
  · intro ht
    refine mayWrite_dirty.mp (not_not.mp (mt (exec_sameAt .dirty h) fun hsame : t.dirty = s.dirty => ?_))
    rw [ht, hs] at hsame
    cases hsame
  · rintro (rfl | ⟨x, y, n, rfl⟩)
    · cases exec_next h; rfl
    · obtain ⟨_, rfl⟩ := exec_next h
      rfl

/-! ### `CLS`: its words and the frame it leaves (R110, R260) -/

@[simp] theorem pixel_clearFrame (s : State) (X : Col) (Y : Row) : s.clearFrame.pixel X Y = false := by
  simp [State.clearFrame, State.pixel, Frame.getPixel]

theorem decodeWord_cls (x : Reg) : decodeWord (wordXKK 0x0 x 0xE0) = .cls := by
  simp [decodeWord, decode0]

/-! ### The draw, by the policy and the range of its rows (R203, R261) -/

theorem exec_drw_of_admits (ha : s.admitsOperands [x, y]) (hin : n.val = 0 ∨ s.i.toNat + n.val ≤ memSize) :
    exec (.drw x y n) s =
      .next (s.drawSprite (s.reg x).toNat (s.reg y).toNat (s.spriteRows n)).advance := by
  refine (guardAlias_of_admits mem_pair_iff_aliased ha).trans ?_
  rw [State.dataAddress, memRead_ok hin, afterRead, State.spriteRows]

theorem exec_drw_past (ha : s.admitsOperands [x, y]) (hn : n.val ≠ 0) (h : memSize < s.i.toNat + n.val) :
    exec (.drw x y n) s = .fault (.memRange s.i.toNat) :=
  (guardAlias_of_admits mem_pair_iff_aliased ha).trans (afterRead_memRead_past _ hn h)

theorem admitsOperands_of_ne (hx : x ≠ VF) (hy : y ≠ VF) : s.admitsOperands [x, y] :=
  fun _ => by simp [hx.symm, hy.symm]

/-! ### The pixels and the flag it leaves (R261 to R263) -/

theorem flagByte_eq_one_iff {b : Bool} : flagByte b = 1 ↔ b = true := by cases b <;> decide

theorem flagByte_eq_zero_iff {b : Bool} : flagByte b = 0 ↔ ¬ b = true := by cases b <;> decide

section Draw

variable {px py : Nat} {rows : List Byte}

theorem reg_VF_drawSprite :
    (s.drawSprite px py rows).reg VF = flagByte (plotRows px py rows { fb := s.fb, hit := false }).hit := by
  rw [drawSprite_reg, if_pos rfl]

theorem reg_VF_drawSprite_eq_one_iff : (s.drawSprite px py rows).reg VF = 1 ↔
    ∃ (X : Col) (Y : Row), spriteLit rows px py X.val Y.val = true ∧ s.pixel X Y = true := by
  rw [reg_VF_drawSprite, flagByte_eq_one_iff, drawSprite_hit]

theorem reg_VF_drawSprite_eq_zero_iff : (s.drawSprite px py rows).reg VF = 0 ↔
    ¬ ∃ (X : Col) (Y : Row), spriteLit rows px py X.val Y.val = true ∧ s.pixel X Y = true := by
  rw [reg_VF_drawSprite, flagByte_eq_zero_iff, drawSprite_hit]

end Draw

/-! ### The same draw again (R266) -/

/-- The rows a draw reads depend on memory and `I` alone. -/
theorem spriteRows_congr (hmem : ∀ a, t.readByte a = s.readByte a) (hi : t.i = s.i) (n : Height) :
    t.spriteRows n = s.spriteRows n := by
  simp only [State.spriteRows, hmem, hi]

/-- Unless it names `VF`, a draw done again reads the same place and the same rows. -/
theorem exec_drw_again {u : State} (hx : x ≠ VF) (hy : y ≠ VF) (ht : exec (.drw x y n) s = .next t)
    (hmem : ∀ a, u.readByte a = t.readByte a) (hi : u.i = t.i) (hrx : u.reg x = t.reg x)
    (hry : u.reg y = t.reg y) : exec (.drw x y n) u =
      .next (u.drawSprite (s.reg x).toNat (s.reg y).toNat (s.spriteRows n)).advance := by
  obtain ⟨hin, rfl⟩ := exec_next ht
  have hi' : u.i = s.i := hi
  have hpx : u.reg x = s.reg x := by rw [hrx, State.advance_reg, drawSprite_reg, if_neg hx]
  have hpy : u.reg y = s.reg y := by rw [hry, State.advance_reg, drawSprite_reg, if_neg hy]
  rw [exec_drw_of_admits (admitsOperands_of_ne hx hy) (hi' ▸ hin), hpx, hpy, spriteRows_congr (s := s) hmem hi']

/-- A draw turns a pixel from Black to White exactly where the sprite is lit and the pixel is White after it: there
the same draw, done again, collides. -/
theorem lit_and_white_after_drawSprite_iff {px py : Nat} {rows : List Byte} (X : Col) (Y : Row) :
    (spriteLit rows px py X.val Y.val = true ∧ (s.drawSprite px py rows).pixel X Y = true) ↔
      (s.pixel X Y = false ∧ (s.drawSprite px py rows).pixel X Y = true) := by
  rw [drawSprite_pixel]
  cases s.pixel X Y <;> cases spriteLit rows px py X.val Y.val <;> decide

end Sys2Proof.Machine
end

section
/-! PROOFS. The display (spec/44_display.md R260 to R266): the clear, the draw, the draw done twice, and when the
frame is presented. -/

namespace Sys2Proof.Machine

/-- Settles O20: the outputs report the `dirty` that the completed instruction left. -/
theorem presentExactlyAfterClsOrDrw : Obligations.PresentExactlyAfterClsOrDrw := by
  intro s u o hs hclean hu hf
  obtain ⟨t, hx, _⟩ := step_completed (step_of_update hu) hf
  rw [update_of_exec hs hx] at hu
  cases hu
  refine ⟨?_, rfl⟩
  rw [State.stepOutputs, settleMode_dirty]
  exact exec_dirty_iff hclean hx

/-- Settles O53, by the policy and by whether the rows lie within memory. -/
theorem drawFlipsLitPixelsAndFlagsCollision : Obligations.DrawFlipsLitPixelsAndFlagsCollision := by
  rintro x y n s _ rfl
  refine ⟨decodeWord_encode (i := .drw x y n) rfl, fun ha hin => ?_, exec_drw_past,
    guardAlias_of_not_admits mem_pair_iff_aliased⟩
  have hx := exec_drw_of_admits ha hin
  exact ⟨_, hx, drawSprite_pixel s _ _ _, reg_VF_drawSprite_eq_one_iff.mpr, reg_VF_drawSprite_eq_zero_iff.mpr,
    rfl, rfl, exec_changesOnly hx⟩

/-- Settles O54: the second draw flips the pixels of the same sprite, and collides where the first turned Black to
White. -/
theorem drawingTwiceRestoresTheFrame : Obligations.DrawingTwiceRestoresTheFrame := by
  intro x y n s t t' hx hy ht hpix hmem hi hrx hry
  have hagain := exec_drw_again hx hy ht hmem hi hrx hry
  obtain ⟨_, rfl⟩ := exec_next ht
  simp only [State.advance_pixel] at hpix ⊢
  refine ⟨_, hagain, fun X Y => ?_, ?_, fun hblack => ?_⟩
  · rw [State.advance_pixel, drawSprite_pixel, hpix, drawSprite_pixel, Bool.xor_assoc, Bool.xor_self,
      Bool.xor_false]
  · rw [State.advance_reg, reg_VF_drawSprite_eq_one_iff]
    simp only [hpix, lit_and_white_after_drawSprite_iff]
  · rw [State.advance_reg, reg_VF_drawSprite_eq_one_iff]
    refine exists₂_congr fun X Y => and_iff_left_of_imp fun hlit => ?_
    rw [hpix, drawSprite_pixel, hblack X Y hlit, hlit, Bool.false_xor]

/-- Settles O52: the clear leaves every pixel Black, whatever it was. -/
theorem clsBlackensTheFrame : Obligations.ClsBlackensTheFrame :=
  ⟨decodeWord_cls, fun s => ⟨_, rfl, pixel_clearFrame s, rfl, rfl, exec_changesOnly (i := .cls) rfl⟩⟩

end Sys2Proof.Machine
end

section
/-! SUPPORT. Timers and keys (spec/45_timers_keys.md): the tick and the tone at the end of an update, the key a
register names, the lowest key down, and who writes the keys. -/

namespace Sys2Proof.Machine

variable {s t : State} {x : Reg} {k : Key}

/-! ### The end of a completed update (R131, R296, R297) -/

theorem toNat_delay_finishUpdate : s.finishUpdate.delay.toNat = s.delay.toNat - 1 := tickTimer_toNat s.delay

theorem toNat_sound_finishUpdate : s.finishUpdate.sound.toNat = s.sound.toNat - 1 := tickTimer_toNat s.sound

theorem tone_stepOutputs_iff : s.stepOutputs.tone = true ↔ s.sound.toNat = 1 := by
  rw [State.stepOutputs, State.toneDue, beq_iff_eq]
  exact BitVec.toNat_inj.symm

theorem changesOnly_finishUpdate :
    ChangesOnly s s.finishUpdate fun c => c = .delay ∨ c = .sound ∨ c = .dirty := by
  intro c hc
  cases c with
  | delay => exact absurd (.inl rfl) hc
  | sound => exact absurd (.inr (.inl rfl)) hc
  | dirty => exact absurd (.inr (.inr rfl)) hc
  | _ => rfl

/-! ### The key operand (R104, R300) -/

/-- The key operand is the low nibble of the register. -/
theorem keyOperand_eq (h : k.val = (s.reg x).toNat % 16) : s.keyOperand x = k :=
  Fin.ext ((BitVec.extractLsb'_toNat 0 4 (s.reg x)).trans h.symm)

/-! ### The lowest key down (R295, R299) -/

/-- `allKeys` is ascending, so the first pressed key found is the lowest. -/
theorem lowestPressed_eq_some (hk : s.isPressed k = true) (hlow : ∀ j, j < k → s.isPressed j = false) :
    s.lowestPressed = some k := by
  rw [State.lowestPressed, show allKeys = List.finRange nkeys from rfl, ← Fin.find?_eq_find?_finRange,
    Fin.find?_eq_some_iff]
  exact ⟨hk, hlow⟩

theorem exec_ldXK_of_none (h : s.lowestPressed = none) :
    exec (.ldXK x) s = .next (s.setMode .waitingForKey) := by
  simp [exec, execLdXK, h]

theorem exec_ldXK_of_some (h : s.lowestPressed = some k) :
    exec (.ldXK x) s = .next ((s.setReg x (BitVec.ofNat 8 k.val)).setMode .running).advance := by
  simp [exec, execLdXK, h]

/-- A key index fits in the byte that `LD Vx, K` writes. -/
theorem toNat_reg_setReg_key : ((s.setReg x (BitVec.ofNat 8 k.val)).reg x).toNat = k.val := by
  rw [reg_setReg_self, BitVec.toNat_ofNat]
  exact Nat.mod_eq_of_lt (k.isLt.trans (by decide))

/-! ### Who writes the keys (R42, R298) -/

theorem keyEvent_unmapped {e : Nat} (pressed : Bool) (h : lookupKey s.config.keymap e = none) :
    s.keyEvent e pressed = s := by
  unfold State.keyEvent; rw [h]

theorem changesOnly_setKey (pressed : Bool) : ChangesOnly s (s.setKey k pressed) fun c => c = .key k := by
  intro c hc
  cases c with
  | key j =>
    have hne : k.val ≠ j.val := fun h => hc (congrArg Component.key (Fin.ext h.symm))
    exact Vector.getElem_set_ne k.isLt j.isLt hne
  | _ => rfl

@[simp] theorem settleMode_isPressed (s : State) (i : Instr) (k : Key) :
    (s.settleMode i).isPressed k = s.isPressed k := by
  rw [State.isPressed, settleMode_keys, State.isPressed]

/-- Every key keeps its level over a step, whether it is halted, takes a fault or completes an instruction. -/
theorem step_isPressed (h : step s = .next t) (k : Key) : t.isPressed k = s.isPressed k := by
  obtain ⟨_, _, rfl⟩ | ⟨_, _, _, rfl⟩ | ⟨u, _, hx, rfl⟩ := step_cases h
  · rfl
  · rfl
  · calc (u.settleMode (decodeWord s.wordAtPc)).finishUpdate.isPressed k
      _ = (u.settleMode (decodeWord s.wordAtPc)).isPressed k := rfl
      _ = u.isPressed k := settleMode_isPressed u _ k
      _ = s.isPressed k := exec_isPressed hx k

end Sys2Proof.Machine
end

section
/-! PROOFS. Timers and keys (spec/45_timers_keys.md R290 to R300): the tick, the timer moves, the key skips, the wait
for a key and the key events. -/

namespace Sys2Proof.Machine

/-- Settles O19: the update of a completed step is the tick and the frame output, and it reports the tone of the
state before them. -/
theorem updateTicksTheTimers : Obligations.UpdateTicksTheTimers :=
  fun _ _ hl hstep => ⟨_, _, update_next hl hstep, toNat_delay_finishUpdate, toNat_sound_finishUpdate,
    tone_stepOutputs_iff, changesOnly_finishUpdate⟩

/-- Settles O36: both are skips on the level of the key operand, which is `k`. -/
theorem keySkipsTestTheKeyLevel : Obligations.KeySkipsTestTheKeyLevel := by
  intro x s k hk
  obtain rfl := keyOperand_eq hk
  refine ⟨decodeWord_encode (i := .skp x) rfl, decodeWord_encode (i := .sknp x) rfl, ?skp, ?sknp⟩
  case skp => exact exec_skip rfl id id
  case sknp => exact exec_skip rfl (congrArg not) (congrArg not)

/-- Settles O55: the update after the move ticks the timer that the move set. -/
theorem timerMovesCopyTheByte : Obligations.TimerMovesCopyTheByte := by
  refine fun x s => ⟨decodeWord_encode (i := .ldXDT x) rfl, decodeWord_encode (i := .ldDTX x) rfl,
    decodeWord_encode (i := .ldSTX x) rfl,
    ⟨_, rfl, reg_advance_setReg s x s.delay, rfl, exec_changesOnly (i := .ldXDT x) rfl⟩,
    ⟨_, rfl, rfl, rfl, exec_changesOnly (i := .ldDTX x) rfl⟩,
    ⟨_, rfl, rfl, rfl, exec_changesOnly (i := .ldSTX x) rfl⟩, fun hs hw => ?delay, fun hs hw => ?sound⟩
  case delay =>
    have hx : exec (decodeWord s.wordAtPc) s = .next (s.setDelay (s.reg x)).advance := by rw [hw]; rfl
    refine ⟨_, _, update_of_exec hs hx, ?_⟩
    rw [toNat_delay_finishUpdate, settleMode_delay]; rfl
  case sound =>
    have hx : exec (decodeWord s.wordAtPc) s = .next (s.setSound (s.reg x)).advance := by rw [hw]; rfl
    refine ⟨_, _, update_of_exec hs hx, ?_, ?_⟩
    · rw [toNat_sound_finishUpdate, settleMode_sound]; rfl
    · rw [tone_stepOutputs_iff, settleMode_sound]; rfl

/-- Settles O56, by whether a key is down. -/
theorem keyWaitTakesTheLowestKeyOrParks : Obligations.KeyWaitTakesTheLowestKeyOrParks := by
  refine fun x s => ⟨decodeWord_encode (i := .ldXK x) rfl, fun hup => ?_, fun k hk hlow => ?_⟩
  · have hnone := lowestPressed_eq_none_iff.mpr hup
    exact ⟨hnone, _, exec_ldXK_of_none hnone, rfl, rfl, changesOnly_setMode rfl⟩
  · have hsome := lowestPressed_eq_some hk hlow
    have hx := exec_ldXK_of_some (x := x) hsome
    exact ⟨hsome, _, hx, toNat_reg_setReg_key, rfl, rfl, exec_changesOnly hx⟩

/-- Settles O57, by whether the id is mapped. -/
theorem keyEventSetsItsKeyAlone : Obligations.KeyEventSetsItsKeyAlone := by
  refine fun s e pressed => ⟨fun hnone => ?_, fun k hsome => ?_, fun _ k h => step_isPressed h k⟩
  · rw [transact, keyEvent_unmapped pressed hnone]
  · refine ⟨s.setKey k pressed, ?_, isPressed_setKey_self k pressed, changesOnly_setKey pressed⟩
    rw [transact, keyEvent_mapped pressed hsome]

end Sys2Proof.Machine
end

section
/-! SUPPORT. Reset, load and the delay across steps (spec/70_reset_and_hazards.md R370 to R378): what the state after
construction reads as, what a load may change, and the steps of the two delay moves. -/

namespace Sys2Proof.Machine

variable {s t u : State} {x : Reg}

/-! ### The state after construction (R370, R371) -/

section Construct

variable (c : Config)

@[simp] theorem construct_reg (r : Reg) : (State.construct c).reg r = 0 := by
  simp [State.construct, State.reg]

@[simp] theorem construct_isPressed (k : Key) : (State.construct c).isPressed k = false := by
  simp [State.construct, State.isPressed]

@[simp] theorem construct_pixel (X : Col) (Y : Row) : (State.construct c).pixel X Y = false := by
  simp [State.construct, State.pixel, Frame.getPixel]

/-- Memory starts with the font at its bottom (R87). -/
theorem construct_readByte_font {a : Nat} (h : a < fontSize) : (State.construct c).readByte a = c.font[a] :=
  dif_pos h

/-- Past the font, memory starts with `MEM_INIT` (R72). -/
theorem construct_readByte_memInit {a : Nat} (h : fontSize ≤ a) :
    (State.construct c).readByte a = (Memory.lookup c.memInit a).getD 0 := dif_neg (Nat.not_lt.mpr h)

end Construct

/-- `reset` and construction give the same state, but for the draw counter (R372, log entry 2). -/
theorem eq_construct_of_reset (h : transact .reset s = .next t ∨ t = State.construct s.config) :
    ∃ n, t = { State.construct s.config with draws := n } := by
  obtain h | rfl := h
  · cases h; exact ⟨s.draws, rfl⟩
  · exact ⟨0, rfl⟩

/-! ### What a load may change (R373) -/

theorem changesOnly_load (bytes : List Byte) : ChangesOnly s (s.load (.program bytes))
    fun c => c = .pc ∨ InBytes progBase (min bytes.length progMax) c := by
  refine (changesOnly_storeBytes fun c hc => .inr ?_).trans (changesOnly_jumpTo (.inl rfl))
  rwa [List.length_take, Nat.min_comm] at hc

/-! ### The steps of the delay moves (R290, R291, R378) -/

/-- The update that writes the delay also ticks it. -/
theorem toNat_delay_step_ldDTX (hs : s.Executes) (hw : decodeWord s.wordAtPc = .ldDTX x)
    (h : step s = .next u) : u.delay.toNat = (s.reg x).toNat - 1 := by
  obtain ⟨-, -, -, -, -, -, hdelay, -⟩ := timerMovesCopyTheByte x s
  obtain ⟨v, o, hv, htick⟩ := hdelay hs hw
  rw [step_of_update hv] at h
  cases h
  exact htick

/-- `LD Vx, DT` reads the delay before the tick of its own update. -/
theorem step_ldXDT (hs : s.Executes) (hw : decodeWord s.wordAtPc = .ldXDT x) :
    ∃ t, step s = .next t ∧ t.reg x = s.delay ∧ t.delay.toNat = s.delay.toNat - 1 := by
  have hx : exec (decodeWord s.wordAtPc) s = .next (s.setReg x s.delay).advance := by rw [hw]; rfl
  refine ⟨_, step_of_exec hs hx, ?_, ?_⟩
  · rw [finishUpdate_eq, State.frameOut_reg, State.timerTick_reg, settleMode_reg, reg_advance_setReg]
  · rw [toNat_delay_finishUpdate, settleMode_delay]; rfl

end Sys2Proof.Machine
end

section
/-! PROOFS. Reset and hazards (spec/70_reset_and_hazards.md): the state after reset, the load, and a delay that is
written in one step and read in the next. -/

namespace Sys2Proof.Machine

/-- Settles O21: the tick of the first update comes before the read, that of the second after it. -/
theorem writtenDelayIsReadOneLowerInTheNextStep : Obligations.WrittenDelayIsReadOneLowerInTheNextStep := by
  intro s u x y hs hwrite hstep hu hread
  have hdelay := toNat_delay_step_ldDTX hs hwrite hstep
  obtain ⟨r, hr, hy, htick⟩ := step_ldXDT hu hread
  refine ⟨r, hr, ?_, ?_⟩
  · rw [hy, hdelay]
  · rw [htick, hdelay, Nat.sub_sub]

/-- Settles O17: `State.reset` is the state after construction with the default parameters. -/
theorem constructionMeetsTheInvariant : Obligations.ConstructionMeetsTheInvariant :=
  ⟨inv_construct, inv_construct Config.default⟩

/-- Settles O58: the loaded bytes read back, and the rest is the frame of the load. -/
theorem loadWritesTheProgramAndPc : Obligations.LoadWritesTheProgramAndPc :=
  fun _ bytes => ⟨⟨_, rfl, rfl, fun _ => readByte_load, changesOnly_load bytes⟩, rfl⟩

/-- Settles O59: both states are the constructed one, whose memory reads as the font, then `MEM_INIT`. -/
theorem resetRestoresEveryField : Obligations.ResetRestoresEveryField := by
  refine fun s => ⟨⟨_, rfl⟩, fun t ht => ?_⟩
  obtain ⟨n, rfl⟩ := eq_construct_of_reset ht
  exact ⟨construct_reg s.config, rfl, rfl, rfl, rfl, rfl, rfl, rfl, construct_isPressed s.config,
    construct_pixel s.config, fun _ => construct_readByte_font s.config,
    fun _ => construct_readByte_memInit s.config, rfl, rfl⟩

end Sys2Proof.Machine
end
